-- ==== Sys2Proof/Word.lean ====
section
/-! DEFINITION. The words the block moves (spec/00_scope.md R7, spec/30_encoding.md R84). -/

namespace Sys2Proof

/-- One 8-bit unsigned value of the octet buffer (R7, R14). -/
abbrev Octet := BitVec 8

/-- A code point number on the block's ports, 21 bits wide (R7; 92_eei_decisions.md D7). -/
abbrev CodePoint := BitVec 21

/-- One command word (R84). -/
abbrev CommandWord := BitVec 32

/-- The value of a main group: 11 bits, an index of the main table (R7, R66). -/
abbrev MainIndex := BitVec 11

/-- The value of a tail group: 3 bits, an index of the tail table (R7, R66). -/
abbrev TailIndex := BitVec 3

end Sys2Proof
end

