-- ==== Sys2Proof/Syntax.lean ====
section
/-! DEFINITION. The commands of the block, one constructor per row of spec/opcode_table.json (R85). -/

namespace Sys2Proof

inductive Instr where
  /-- NOP (R190). -/
  | nop
  /-- ENC_BYTE: take one octet into the encoder (R140). -/
  | encByte (b : Octet)
  /-- ENC_END: close the encoder's message (R144). -/
  | encEnd
  /-- DEC_SYM: take one code point into the decoder (R160). -/
  | decSym (cp : CodePoint)
  /-- DEC_END: close the decoder's string (R167). -/
  | decEnd
  /-- STAT: read STATUS (R191). -/
  | stat
  /-- RESERVED_OP6_7: an illegal word with opcode 6 or 7, its three fields (R193). -/
  | reservedOp67 (op : BitVec 4) (rsv : BitVec 7) (data : BitVec 21)
  /-- RESERVED_OP8_F: an illegal word with opcode 8 to 15, its three fields (R193). -/
  | reservedOp8F (op : BitVec 4) (rsv : BitVec 7) (data : BitVec 21)
deriving DecidableEq, Repr

/-- Why the decoder takes a word for none of the rows: a word with opcode 0 to 5 that R88 makes illegal. -/
inductive DecodeError where
  /-- RSV, bits [27:21], is not 0. -/
  | nonzeroReservedField
  /-- A DATA bit that the opcode does not use is not 0. -/
  | nonzeroUnusedData
deriving DecidableEq, Repr

end Sys2Proof
end

