-- ==== Sys2Proof/WellFormed.lean ====
section
/-! DEFINITION. Well-formed commands: the opcode of a reserved word lies in its row's range (R85). Every other
operand is held at exactly its width (R88), so it needs no check. The check of a configuration (R9) is
`Repertoire.check` in Config.lean. -/

namespace Sys2Proof

def Instr.wf : Instr → Bool
  | .nop => true
  | .encByte _ => true
  | .encEnd => true
  | .decSym _ => true
  | .decEnd => true
  | .stat => true
  | .reservedOp67 op _ _ => op == 6#4 || op == 7#4
  | .reservedOp8F op _ _ => decide (8 ≤ op.toNat)

/-- The two rows of reserved opcodes, whose words are illegal (R85, R193). -/
def Instr.isReserved : Instr → Bool
  | .nop => false
  | .encByte _ => false
  | .encEnd => false
  | .decSym _ => false
  | .decEnd => false
  | .stat => false
  | .reservedOp67 _ _ _ => true
  | .reservedOp8F _ _ _ => true

/-- The commands of the encoder engine (R39). -/
def Instr.ofEncoder : Instr → Bool
  | .encByte _ => true
  | .encEnd => true
  | .nop => false
  | .decSym _ => false
  | .decEnd => false
  | .stat => false
  | .reservedOp67 _ _ _ => false
  | .reservedOp8F _ _ _ => false

/-- The commands of the decoder engine (R39). -/
def Instr.ofDecoder : Instr → Bool
  | .decSym _ => true
  | .decEnd => true
  | .nop => false
  | .encByte _ => false
  | .encEnd => false
  | .stat => false
  | .reservedOp67 _ _ _ => false
  | .reservedOp8F _ _ _ => false

end Sys2Proof
end

