-- ==== Sys2Proof/Decode.lean ====
section
/-! DEFINITION. The command decoder and the encoder of format C (spec/30_encoding.md R84, R85, R88). -/

namespace Sys2Proof

/-- OP, bits [31:28] (R84). -/
def opField (w : CommandWord) : BitVec 4 := w.extractLsb' 28 4

/-- RSV, bits [27:21] (R84). -/
def rsvField (w : CommandWord) : BitVec 7 := w.extractLsb' 21 7

/-- DATA, bits [20:0] (R84). -/
def dataField (w : CommandWord) : BitVec 21 := w.extractLsb' 0 21

/-- A command that uses no DATA bit: legal when DATA is 0 (R88). -/
def withoutData (data : BitVec 21) (i : Instr) : Except DecodeError Instr :=
  if data = 0#21 then .ok i else .error .nonzeroUnusedData

/-- The command of a word whose opcode is 0 to 5 and whose RSV is 0 (R88). -/
def decodeOperation (op : BitVec 4) (data : BitVec 21) : Except DecodeError Instr :=
  if op = 0#4 then withoutData data .nop
  else if op = 1#4 then
    if data.extractLsb' 8 13 = 0#13 then .ok (.encByte (data.extractLsb' 0 8))
    else .error .nonzeroUnusedData
  else if op = 2#4 then withoutData data .encEnd
  else if op = 3#4 then .ok (.decSym data)
  else if op = 4#4 then withoutData data .decEnd
  else withoutData data .stat

/-- The decoder: total on every 32-bit word (R84: "no other length, no prefix, no compressed form"). A word
with a reserved opcode is its row's illegal command whatever its other bits (R85); a word with opcode 0 to 5
that R88 makes illegal is rejected by name, and the step answers it as R193 says. -/
def decode (w : CommandWord) : Except DecodeError Instr :=
  if opField w = 6#4 ∨ opField w = 7#4 then .ok (.reservedOp67 (opField w) (rsvField w) (dataField w))
  else if 8 ≤ (opField w).toNat then .ok (.reservedOp8F (opField w) (rsvField w) (dataField w))
  else if rsvField w ≠ 0#7 then .error .nonzeroReservedField
  else decodeOperation (opField w) (dataField w)

/-- `legal(w)` of R88, written from its formula and not from the decoder. -/
def legal (w : CommandWord) : Bool :=
  decide (rsvField w = 0#7) &&
    (decide (opField w = 0#4 ∧ dataField w = 0#21)
      || decide (opField w = 1#4 ∧ (dataField w).extractLsb' 8 13 = 0#13)
      || decide (opField w = 2#4 ∧ dataField w = 0#21)
      || decide (opField w = 3#4)
      || decide (opField w = 4#4 ∧ dataField w = 0#21)
      || decide (opField w = 5#4 ∧ dataField w = 0#21))

/-- A word of format C from its fields (R84). -/
def formatC (op : BitVec 4) (rsv : BitVec 7) (data : BitVec 21) : CommandWord := op ++ rsv ++ data

/-- The word of a command (R85). -/
def encode : Instr → CommandWord
  | .nop => formatC 0#4 0#7 0#21
  | .encByte b => formatC 1#4 0#7 (b.setWidth 21)
  | .encEnd => formatC 2#4 0#7 0#21
  | .decSym cp => formatC 3#4 0#7 cp
  | .decEnd => formatC 4#4 0#7 0#21
  | .stat => formatC 5#4 0#7 0#21
  | .reservedOp67 op rsv data => formatC op rsv data
  | .reservedOp8F op rsv data => formatC op rsv data

/-- The command word whose `nbits` low bits are those of `w` and whose other bits are 0. -/
def tableWord (nbits w : Nat) : CommandWord := BitVec.ofNat 32 (w % 2 ^ nbits)

/-- The command the decoder reads from a word numbered as spec/opcode_table.json numbers it: the port takes
the 32-bit word whole, so no byte order comes in (log 8). -/
def decodeTableWord (nbits w : Nat) : Option Instr :=
  match decode (tableWord nbits w) with
  | .ok i => some i
  | .error _ => none

end Sys2Proof
end

