-- ==== Sys2Proof/Config.lean ====
section
/-! DEFINITION. The configuration of a block: the repertoire ROM and PAD_CHECK (spec/00_scope.md R6, R9),
and the test configuration of spec/95_test_vectors.md. No command writes any of it (R20, R35, R56). -/

namespace Sys2Proof

/-- The contents of the repertoire ROM: the main table of 2048 and the tail table of 8 code points (R50). -/
structure Repertoire where
  main : Vector CodePoint 2048
  tail : Vector CodePoint 8
deriving DecidableEq, Repr

/-- All code points of both tables, the main table first. -/
def Repertoire.codePoints (r : Repertoire) : List CodePoint :=
  r.main.toList ++ r.tail.toList

/-- The four conditions of R9 as one check: the code points are "pairwise distinct across both tables
combined" (conditions 1 to 3), and none is above 0x10FFFF (condition 4). -/
def Repertoire.check (r : Repertoire) : Bool :=
  decide r.codePoints.Nodup && r.codePoints.all fun c => decide (c.toNat ≤ 0x10FFFF)

/-- A configuration a model may run on: the tables and PAD_CHECK (R6), with the check of R9 made ONCE, at
construction, as the source asks ("Invariant enforced at construction time (not at call time)", R235).
DEDUCED (log 3, safe): a state over an ill-formed repertoire cannot be built; `Machine.boot` refuses one. -/
structure Config where
  rom : Repertoire
  /-- PAD_CHECK: whether DEC_END checks that the stripped bits are all 1 (R125, R170). -/
  padCheck : Bool
  wellFormed : rom.check = true
deriving DecidableEq, Repr

/-- The `n` code points from `start` on. -/
def codePointsFrom : Nat → Nat → List CodePoint
  | _, 0 => []
  | start, n + 1 => BitVec.ofNat 21 start :: codePointsFrom (start + 1) n

theorem codePointsFrom_length (start n : Nat) : (codePointsFrom start n).length = n := by
  induction n generalizing start with
  | zero => rfl
  | succ n ih => simp [codePointsFrom, ih]

/-- The code points from `start` on have numbers in the range asked for, when they fit in 21 bits. -/
theorem toNat_of_mem_codePointsFrom {c : CodePoint} {start n : Nat} (hfit : start + n ≤ 2 ^ 21)
    (h : c ∈ codePointsFrom start n) : start ≤ c.toNat ∧ c.toNat < start + n := by
  induction n generalizing start with
  | zero => simp [codePointsFrom] at h
  | succ n ih =>
    rcases List.mem_cons.mp h with rfl | h
    · have : start % 2097152 = start := Nat.mod_eq_of_lt (by omega)
      simp [this]
    · have := ih (by omega) h
      omega

theorem codePointsFrom_nodup {start n : Nat} (hfit : start + n ≤ 2 ^ 21) :
    (codePointsFrom start n).Nodup := by
  induction n generalizing start with
  | zero => simp [codePointsFrom]
  | succ n ih =>
    refine List.nodup_cons.mpr ⟨fun h => ?_, ih (by omega)⟩
    have := toNat_of_mem_codePointsFrom (by omega) h
    have hs : start % 2097152 = start := Nat.mod_eq_of_lt (by omega)
    simp [hs] at this

/-- TESTROM of spec/95_test_vectors.md: `main[i] = 0x10000 + i`, `tail[j] = 0xF0 + j`. It "is a test
configuration only and is not the product table" (92_eei_decisions.md D25). -/
def Repertoire.test : Repertoire where
  main := ⟨⟨codePointsFrom 0x10000 2048⟩, codePointsFrom_length 0x10000 2048⟩
  tail := ⟨⟨codePointsFrom 0xF0 8⟩, codePointsFrom_length 0xF0 8⟩

/-- "TESTROM meets 00_scope.md rule R9" (95_test_vectors.md). -/
theorem Repertoire.test_check : Repertoire.test.check = true := by
  have hcp : Repertoire.test.codePoints = codePointsFrom 0x10000 2048 ++ codePointsFrom 0xF0 8 := rfl
  have hmain := @toNat_of_mem_codePointsFrom (start := 0x10000) (n := 2048) (hfit := by omega)
  have htail := @toNat_of_mem_codePointsFrom (start := 0xF0) (n := 8) (hfit := by omega)
  simp only [Repertoire.check, hcp, Bool.and_eq_true, decide_eq_true_eq, List.all_eq_true,
    List.mem_append]
  refine ⟨List.Nodup.append (codePointsFrom_nodup (by omega)) (codePointsFrom_nodup (by omega)) ?_, ?_⟩
  · intro c h1 h2
    have := hmain c h1
    have := htail c h2
    omega
  · rintro c (h | h)
    · have := hmain c h
      omega
    · have := htail c h
      omega

/-- TESTROM with a choice of PAD_CHECK. -/
def Config.test (padCheck : Bool) : Config := ⟨Repertoire.test, padCheck, Repertoire.test_check⟩

end Sys2Proof
end

