-- ==== Sys2Proof/Machine/State.lean ====
section
/-! DEFINITION. The state of one block (spec/10_state.md), its reset values (R38, R230), and the reasons a
step may stop. -/

namespace Sys2Proof.Machine

/-- The encoder engine E (R23): the bits taken in and not yet emitted, right-aligned, and their count. -/
structure Encoder where
  acc : BitVec 10
  cnt : BitVec 4
deriving DecidableEq, Repr

/-- The two error kinds of the decoder (R29, R200). -/
inductive MessageError where
  | invalidCharacter
  | malformedInput
deriving DecidableEq, Repr

/-- The decoder engine D (R26, R28, R29): the bits that do not make an octet yet, right-aligned, and their
count; the tail flag; the stored error, `none` for NONE (log 7). -/
structure Decoder where
  acc : BitVec 7
  cnt : BitVec 3
  tail : Bool
  err : Option MessageError
deriving DecidableEq, Repr

/-- The 2-bit code of a response (R86, R200). -/
inductive ResponseCode where
  | ok
  | invalidCharacter
  | malformedInput
  | illegalCommand
deriving DecidableEq, Repr

/-- One output item of a response (R86): a code point of the encoder or an octet of the decoder. -/
inductive OutItem where
  | sym (cp : CodePoint)
  | oct (b : Octet)
deriving DecidableEq, Repr

/-- The response to one command word (R86): its code, its output items in emission order, and the STATUS
value that only the response to STAT carries. -/
structure Response where
  code : ResponseCode
  out : List OutItem
  stat : Option (BitVec 32)
deriving DecidableEq, Repr

/-- What the host may put to the block: a command word on the command port, or the reset input (R8, R230). -/
inductive HostEvent where
  | command (w : CommandWord)
  | reset
deriving DecidableEq, Repr

/-- Everything the spec gives one block. `config` is the parameter of R20, carried here because the host's
step takes the state alone; no step writes it (log 1). `port` and `responses` are the MODEL's own fields:
the host's inputs still to come, in order (log 4), and the responses delivered so far, oldest first (log 5). -/
structure State where
  config : Config
  enc : Encoder
  dec : Decoder
  port : List HostEvent
  responses : List Response
deriving DecidableEq, Repr

/-- Why a step stops the machine. All three are states that "a model" must not hold and that no command
sequence reaches from reset (93_implementation_defined.md section 2); each is safe (log 6). -/
inductive Fault where
  /-- Raised by ENC_BYTE, ENC_END and STAT when E.cnt is 11 to 15 (R23, R24). Safe. -/
  | encoderCountOutOfRange
  /-- Raised by ENC_BYTE, ENC_END and STAT when E.acc has a bit set at or above position E.cnt (R24). Safe. -/
  | encoderBitsAboveCount
  /-- Raised by DEC_SYM, DEC_END and STAT when D.acc has a bit set at or above position D.cnt (R26). Safe. -/
  | decoderBitsAboveCount
deriving DecidableEq, Repr

/-- Why the model declines to run. -/
inductive Refusal where
  /-- Raised by an arm of `exec` whose instruction has no meaning yet; no arm does. Safe. -/
  | notModelled (mnemonic : String)
  /-- Raised by `boot` on a configuration that breaks R9: "A model refuses to run on an ill-formed
  configuration" (R235). Safe. -/
  | illFormedConfiguration
deriving DecidableEq, Repr

/-- E right after reset (R38). -/
def Encoder.reset : Encoder := ⟨0#10, 0#4⟩

/-- D right after reset (R38). -/
def Decoder.reset : Decoder := ⟨0#7, 0#3, false, none⟩

/-- A block with the configuration `c`, right after its first reset (R38, R230, R236): the engines at the
start of a message, nothing on the port and no response delivered. -/
def State.resetWith (c : Config) : State := ⟨c, Encoder.reset, Decoder.reset, [], []⟩

/-- The machine right after reset. The spec fixes every engine field (R38) and the default of PAD_CHECK (R6)
and leaves the tables a parameter: DESIGN CHOICE (log 2, unsafe): TESTROM. -/
def State.reset : State := State.resetWith (Config.test false)

end Sys2Proof.Machine
end

