-- ==== Sys2Proof/Machine/Operands.lean ====
section
/-! DEFINITION. Bit fields (spec/00_scope.md R10), the ROM lookups (spec/20_memory.md R51 to R54) and the
resolution of a code point to a group (R81, R119). The operands of the commands themselves, the octet
DATA[7:0] and the code point DATA[20:0], are cut out by the decoder (R88). -/

namespace Sys2Proof.Machine

/-- `ones(k) = 2^k - 1`, the k-bit value whose bits are all 1 (R10). -/
def ones (k : Nat) : Nat := 2 ^ k - 1

/-- `v[hi:lo]`, the field of `v` from bit `hi` down to bit `lo` inclusive (R10). -/
def bitField (v hi lo : Nat) : Nat := v / 2 ^ lo % 2 ^ (hi - lo + 1)

/-- `(a << k) | b`: the bits of `a`, then the `k` bits of `b` (R10, R15). -/
def joinBits (a k b : Nat) : Nat := a <<< k ||| b

/-- `RomMain(i)` (R51). -/
def romMain (r : Repertoire) (i : MainIndex) : CodePoint := r.main[i.toNat]'i.isLt

/-- `RomTail(j)` (R52). -/
def romTail (r : Repertoire) (j : TailIndex) : CodePoint := r.tail[j.toNat]'j.isLt

/-- The position of `cp` in a list whose first position is `start`. -/
def positionFrom (cp : CodePoint) : Nat → List CodePoint → Option Nat
  | _, [] => none
  | start, c :: cs => if c = cp then some start else positionFrom cp (start + 1) cs

/-- `IdxMain(cp)` (R53): the index of `cp` in the main table, which is unique because the table is injective. -/
def idxMain (r : Repertoire) (cp : CodePoint) : Option MainIndex :=
  (positionFrom cp 0 r.main.toList).map (BitVec.ofNat 11)

/-- `IdxTail(cp)` (R54). -/
def idxTail (r : Repertoire) (cp : CodePoint) : Option TailIndex :=
  (positionFrom cp 0 r.tail.toList).map (BitVec.ofNat 3)

/-- A tagged group (R113): MAIN with an 11-bit value, or TAIL with a 3-bit value. -/
inductive Group where
  | main (v : MainIndex)
  | tail (v : TailIndex)
deriving DecidableEq, Repr

/-- The width of a group (R7, R81). -/
def Group.width : Group → Nat
  | .main _ => 11
  | .tail _ => 3

/-- The value of a group, below `2^width` (R113). -/
def Group.value : Group → Nat
  | .main v => v.toNat
  | .tail v => v.toNat

def Group.isTail : Group → Bool
  | .main _ => false
  | .tail _ => true

/-- The symbol that stands for a group (R80, R114). -/
def symbolOf (r : Repertoire) : Group → CodePoint
  | .main v => romMain r v
  | .tail v => romTail r v

/-- `resolve(cp)` (R119): the group of a code point, `none` for its InvalidCharacter. -/
def resolve (r : Repertoire) (cp : CodePoint) : Option Group :=
  match idxMain r cp with
  | some i => some (.main i)
  | none =>
    match idxTail r cp with
    | some j => some (.tail j)
    | none => none

end Sys2Proof.Machine
end

