-- ==== Sys2Proof/Machine/Flags.lean ====
section
/-! DEFINITION. The padding mode (spec/10_state.md R30), the codes of the decoder's error field and of the
responses (R29, R86), the STATUS word (R34), and the checks of the state's fields that
spec/93_implementation_defined.md section 2 treats as faults. -/

namespace Sys2Proof.Machine

/-- The encoder's padding mode (R30). -/
inductive PadMode where
  | none
  | tail
  | main
deriving DecidableEq, Repr

/-- `PadMode(E.cnt)`, a function of the count alone (R30). -/
def padMode (cnt : Nat) : PadMode :=
  if cnt = 0 then .none else if cnt ≤ 3 then .tail else .main

/-- The number of padding bits that close a message with `cnt` bits left over (R30, R116). -/
def paddingBits (cnt : Nat) : Nat :=
  match padMode cnt with
  | .none => 0
  | .tail => 3 - cnt
  | .main => 11 - cnt

/-- The final group of a message with `cnt` bits `left` over (R112, R144): no group, or the bits followed by
1s up to 3 or 11 bits. -/
def finalGroup (cnt left : Nat) : Option Group :=
  match padMode cnt with
  | .none => none
  | .tail => some (.tail (BitVec.ofNat 3 (joinBits left (3 - cnt) (ones (3 - cnt)))))
  | .main => some (.main (BitVec.ofNat 11 (joinBits left (11 - cnt) (ones (11 - cnt)))))

/-- The 2-bit value of `D.err` (R29). -/
def errBits : Option MessageError → BitVec 2
  | none => 0#2
  | some .invalidCharacter => 1#2
  | some .malformedInput => 2#2

/-- The 2-bit value of a response code (R86). -/
def ResponseCode.bits : ResponseCode → BitVec 2
  | .ok => 0#2
  | .invalidCharacter => 1#2
  | .malformedInput => 2#2
  | .illegalCommand => 3#2

/-- The response code that reports an error of a message (R200). -/
def MessageError.code : MessageError → ResponseCode
  | .invalidCharacter => .invalidCharacter
  | .malformedInput => .malformedInput

/-- STATUS (R34): `E.cnt | D.cnt << 4 | D.tail << 7 | D.err << 8 | E.acc << 10 | D.acc << 20`, bits [31:27] 0. -/
def statusWord (e : Encoder) (d : Decoder) : BitVec 32 :=
  e.cnt.setWidth 32
    ||| d.cnt.setWidth 32 <<< 4
    ||| (BitVec.ofBool d.tail).setWidth 32 <<< 7
    ||| (errBits d.err).setWidth 32 <<< 8
    ||| e.acc.setWidth 32 <<< 10
    ||| d.acc.setWidth 32 <<< 20

/-- What makes E a value the block never holds (R23, R24; 93 section 2). -/
def encoderFault (e : Encoder) : Option Fault :=
  if 10 < e.cnt.toNat then some .encoderCountOutOfRange
  else if 2 ^ e.cnt.toNat ≤ e.acc.toNat then some .encoderBitsAboveCount
  else none

/-- What makes D a value the block never holds (R26; 93 section 2). -/
def decoderFault (d : Decoder) : Option Fault :=
  if 2 ^ d.cnt.toNat ≤ d.acc.toNat then some .decoderBitsAboveCount else none

/-- The first field that is out of its range, the encoder's first. -/
def stateFault (e : Encoder) (d : Decoder) : Option Fault :=
  match encoderFault e with
  | some f => some f
  | none => decoderFault d

/-- The padding check of DEC_END (R170): the stripped bits, the `D.cnt` bits of `D.acc`, are all 1. -/
def paddingOk (d : Decoder) : Bool := decide (d.acc.toNat = ones d.cnt.toNat)

/-- The code DEC_END responds with (R167): a stored error first, then the padding check where PAD_CHECK asks
for it (R204). -/
def closingCode (padCheck : Bool) (d : Decoder) : ResponseCode :=
  match d.err with
  | some e => e.code
  | none => if padCheck && !paddingOk d then .malformedInput else .ok

end Sys2Proof.Machine
end

