-- ==== Sys2Proof/Machine/Ops.lean ====
section
/-! DEFINITION. The operations the commands share: the response, the guard of a field out of its range, the
two engines' datapaths, error entry and return (spec/60_exceptions.md R205, R206), reset (R230), boot (R236)
and the command port. -/

namespace Sys2Proof.Machine

/-- Deliver one response (R86): it joins the responses delivered so far. -/
def respond (code : ResponseCode) (out : List OutItem) (stat : Option (BitVec 32)) (s : State) : State :=
  { s with responses := s.responses ++ [⟨code, out, stat⟩] }

/-- Stop by name where a field the command uses is out of its range, else go on to `t` (log 6). -/
def guarded (fault : Option Fault) (t : State) : Host.Outcome State Fault Refusal :=
  match fault with
  | some f => .fault f
  | none => .next t

/-- The encoder's datapath on one octet (the pseudocode of R140): E and the symbols emitted. -/
def takeOctet (r : Repertoire) (e : Encoder) (b : Octet) : Encoder × List OutItem :=
  let t := joinBits e.acc.toNat 8 b.toNat
  let n := e.cnt.toNat + 8
  if 11 ≤ n then
    (⟨BitVec.ofNat 10 (t % 2 ^ (n - 11)), BitVec.ofNat 4 (n - 11)⟩,
      [.sym (romMain r (BitVec.ofNat 11 (bitField t (n - 1) (n - 11))))])
  else (⟨BitVec.ofNat 10 t, BitVec.ofNat 4 n⟩, [])

/-- The symbols ENC_END emits (R144): the symbol of the final group, if there is one. -/
def closingSymbols (r : Repertoire) (e : Encoder) : List OutItem :=
  match finalGroup e.cnt.toNat e.acc.toNat with
  | some g => [.sym (symbolOf r g)]
  | none => []

/-- The loop of R160: while 8 bits or more are pending, emit the first 8 as an octet. "At most two
iterations": at most 18 bits are ever pending (`fuel` is 2). Answers the octets, the bits left and their count. -/
def emitOctets : (fuel : Nat) → (t n : Nat) → List OutItem × Nat × Nat
  | 0, t, n => ([], t, n)
  | fuel + 1, t, n =>
    if 8 ≤ n then
      let rest := emitOctets fuel (t % 2 ^ (n - 8)) (n - 8)
      (.oct (BitVec.ofNat 8 (bitField t (n - 1) (n - 8))) :: rest.1, rest.2)
    else ([], t, n)

/-- The decoder's datapath on one accepted group (R160, R164): D and the octets emitted. A tail group sets
`D.tail`. -/
def takeGroup (d : Decoder) (g : Group) : Decoder × List OutItem :=
  let result := emitOctets 2 (joinBits d.acc.toNat g.width g.value) (d.cnt.toNat + g.width)
  ({ d with acc := BitVec.ofNat 7 result.2.1, cnt := BitVec.ofNat 3 result.2.2, tail := d.tail || g.isTail },
    result.1)

/-- Error entry (R205): `D.err` is set, nothing else of D changes, nothing is emitted, and the error is
reported in this command's response. -/
def raise (e : MessageError) (s : State) : State :=
  respond e.code [] none { s with dec := { s.dec with err := some e } }

/-- Error return (R206), and the end of every string (R167): D goes back to its start state, and the outcome
is reported. -/
def closeString (s : State) : State :=
  respond (closingCode s.config.padCheck s.dec) [] none { s with dec := Decoder.reset }

/-- What DEC_SYM does, its checks in the order of R203: a stored error, a misplaced tail, an invalid code
point, and else the code point is taken. -/
def takeSymbol (cp : CodePoint) (s : State) : State :=
  match s.dec.err with
  | some e => respond e.code [] none s
  | none =>
    if s.dec.tail then raise .malformedInput s
    else
      match resolve s.config.rom cp with
      | none => raise .invalidCharacter s
      | some g =>
        respond .ok (takeGroup s.dec g).2 none { s with dec := (takeGroup s.dec g).1 }

/-- The answer to an illegal word (R193): ILLEGAL_COMMAND, and no state changes. -/
def illegalCommand (s : State) : State := respond .illegalCommand [] none s

/-- The reset input (R230): both engines at their reset values; the ROM and PAD_CHECK unchanged; no response,
no output. -/
def takeReset (s : State) : State := { s with enc := Encoder.reset, dec := Decoder.reset }

/-- Boot (R234 to R236): load the ROM and fix PAD_CHECK, check the configuration (R9), release reset. An
ill-formed configuration is refused (R235). -/
def boot (r : Repertoire) (padCheck : Bool) : Host.Outcome State Fault Refusal :=
  if h : r.check = true then .next (State.resetWith ⟨r, padCheck, h⟩)
  else .refused .illFormedConfiguration

/-- What the block finds on its inputs. -/
inductive Input where
  /-- Nothing is pending. -/
  | idle
  /-- The reset input. -/
  | reset
  /-- A command word that the decoder knows. -/
  | command (i : Instr)
  /-- An illegal word that the decoder rejects by name. -/
  | illegal (e : DecodeError)
deriving DecidableEq, Repr

/-- The next input, decoded, and the state with that input taken off the port. Legality "is decided before
all of" the command's own checks (R203). -/
def takeInput (s : State) : Input × State :=
  match s.port with
  | [] => (.idle, s)
  | .reset :: rest => (.reset, { s with port := rest })
  | .command w :: rest =>
    match decode w with
    | .ok i => (.command i, { s with port := rest })
    | .error e => (.illegal e, { s with port := rest })

/-- The host puts one command word before every input still pending. -/
def placeCommand (s : State) (w : CommandWord) : State := { s with port := .command w :: s.port }

end Sys2Proof.Machine
end

