-- ==== Sys2Proof/Machine/ControlCommands.lean ====
section
/-! DEFINITION. The control commands and the reserved opcodes (spec/43_control_commands.md). -/

namespace Sys2Proof.Machine

/-- NOP (R190): respond OK and do nothing, in any state. -/
def execNop (s : State) : Host.Outcome State Fault Refusal :=
  .next (respond .ok [] none s)

/-- STAT (R191): respond OK with STATUS. It reads every field, so it stops where one is out of its range. -/
def execStat (s : State) : Host.Outcome State Fault Refusal :=
  guarded (stateFault s.enc s.dec) (respond .ok [] (some (statusWord s.enc s.dec)) s)

/-- A word with opcode 6 or 7 (R193). -/
def execReservedOp67 (_op : BitVec 4) (_rsv : BitVec 7) (_data : BitVec 21) (s : State) :
    Host.Outcome State Fault Refusal :=
  .next (illegalCommand s)

/-- A word with opcode 8 to 15 (R193). -/
def execReservedOp8F (_op : BitVec 4) (_rsv : BitVec 7) (_data : BitVec 21) (s : State) :
    Host.Outcome State Fault Refusal :=
  .next (illegalCommand s)

end Sys2Proof.Machine
end

