-- ==== Sys2Proof/Machine/DecoderCommands.lean ====
section
/-! DEFINITION. The decoder commands (spec/42_decoder_commands.md). Neither reads or writes E (R166, R172). -/

namespace Sys2Proof.Machine

/-- DEC_SYM (R160 to R163): take one code point. -/
def execDecSym (cp : CodePoint) (s : State) : Host.Outcome State Fault Refusal :=
  guarded (decoderFault s.dec) (takeSymbol cp s)

/-- DEC_END (R167 to R171): report the string's outcome, and return D to its start state. -/
def execDecEnd (s : State) : Host.Outcome State Fault Refusal :=
  guarded (decoderFault s.dec) (closeString s)

end Sys2Proof.Machine
end

