-- ==== Sys2Proof/Machine/EncoderCommands.lean ====
section
/-! DEFINITION. The encoder commands (spec/41_encoder_commands.md). Neither can fail (R147), and neither
reads or writes D. -/

namespace Sys2Proof.Machine

/-- ENC_BYTE (R140): take one octet; emit the main symbol of a completed 11-bit group. -/
def execEncByte (b : Octet) (s : State) : Host.Outcome State Fault Refusal :=
  guarded (encoderFault s.enc)
    (respond .ok (takeOctet s.config.rom s.enc b).2 none { s with enc := (takeOctet s.config.rom s.enc b).1 })

/-- ENC_END (R144): emit the final group under the padding mode, and return E to its reset state. -/
def execEncEnd (s : State) : Host.Outcome State Fault Refusal :=
  guarded (encoderFault s.enc)
    (respond .ok (closingSymbols s.config.rom s.enc) none { s with enc := Encoder.reset })

end Sys2Proof.Machine
end

