-- ==== Sys2Proof/Machine/Dispatch.lean ====
section
/-! DEFINITION. One arm per command of the opcode table (R85). -/

namespace Sys2Proof.Machine

def exec (i : Instr) (s : State) : Host.Outcome State Fault Refusal :=
  match i with
  | .nop => Sys2Proof.Machine.execNop s
  | .encByte b => Sys2Proof.Machine.execEncByte b s
  | .encEnd => Sys2Proof.Machine.execEncEnd s
  | .decSym cp => Sys2Proof.Machine.execDecSym cp s
  | .decEnd => Sys2Proof.Machine.execDecEnd s
  | .stat => Sys2Proof.Machine.execStat s
  | .reservedOp67 op rsv data => Sys2Proof.Machine.execReservedOp67 op rsv data s
  | .reservedOp8F op rsv data => Sys2Proof.Machine.execReservedOp8F op rsv data s

end Sys2Proof.Machine
end

