-- ==== Sys2Proof/Machine/Step.lean ====
section
/-! DEFINITION. One step: the next input the host has put to the block (R8). -/

namespace Sys2Proof.Machine

/-- One command or one reset, as one atomic step (R8). With nothing pending the block "holds its state
unchanged" (R216). -/
def step (s : State) : Host.Outcome State Fault Refusal :=
  match takeInput s with
  | (.idle, t) => .next t
  | (.reset, t) => .next (takeReset t)
  | (.command i, t) => exec i t
  | (.illegal _, t) => .next (illegalCommand t)

/-- `s` with one command word put where the step finds its next input (log 4): the port takes the word whole. -/
def State.withFetchWord (s : State) (nbits w : Nat) : State := placeCommand s (tableWord nbits w)

end Sys2Proof.Machine
end

