-- ==== Sys2Proof/Machine/Message.lean ====
section
/-! DEFINITION. Messages on the command port (spec/70_reset_and_hazards.md R240, R242, R246): the commands of a
message (the pseudo-instructions of R91), what its responses carry, and what its result is. -/

namespace Sys2Proof.Machine

/-- The command words of a list of commands, as inputs of the block in order. -/
def commands (is : List Instr) : List HostEvent := is.map fun i => .command (encode i)

/-- `enc.msg b0, ..., bn-1` (R91): one ENC_BYTE per octet, then ENC_END. -/
def encMsg (bs : List Octet) : List Instr := bs.map .encByte ++ [.encEnd]

/-- `dec.msg c0, ..., cm-1` (R91): one DEC_SYM per code point, then DEC_END. -/
def decMsg (cs : List CodePoint) : List Instr := cs.map .decSym ++ [.decEnd]

/-- The code point of an output item that is one. -/
def OutItem.codePoint? : OutItem → Option CodePoint
  | .sym cp => some cp
  | .oct _ => none

/-- The octet of an output item that is one. -/
def OutItem.octet? : OutItem → Option Octet
  | .sym _ => none
  | .oct b => some b

/-- The output items of a list of responses, in order (R67, R246). -/
def outItems (rs : List Response) : List OutItem := rs.flatMap (·.out)

/-- The code points among them: "its result is the list of output items of all its commands' responses, in
order" (R246) for an encoder message, complete at the response to ENC_END (R243). -/
def symbolsOf (rs : List Response) : List CodePoint := (outItems rs).filterMap OutItem.codePoint?

/-- The octets among them. They are a result only where DEC_END responds OK (R242): see `stringResult`. -/
def octetsEmitted (rs : List Response) : List Octet := (outItems rs).filterMap OutItem.octet?

/-- The result of a decoder message with the responses `rs`, the last one DEC_END's (R242, R246): its octets
where DEC_END responds OK; its error, and no octet at all, where DEC_END responds 1 or 2; nothing (`none`)
where there is no response or the last one answers an illegal word, so is no DEC_END's (log 11). -/
def stringResult (rs : List Response) : Option (Except MessageError (List Octet)) :=
  match rs.getLast? with
  | none => none
  | some r =>
    match r.code with
    | .ok => some (.ok (octetsEmitted rs))
    | .invalidCharacter => some (.error .invalidCharacter)
    | .malformedInput => some (.error .malformedInput)
    | .illegalCommand => none

/-- The position of the first response whose code is not OK (R127). -/
def firstFailure (rs : List Response) : Option Nat := rs.findIdx? fun r => r.code != .ok

end Sys2Proof.Machine
end

