-- ==== Sys2Proof/Machine/Assembler.lean ====
section
/-! DEFINITION. The assembler of spec/30_encoding.md R90 and R91: its lines, the command words they stand for
under a ROM, and how a line of text is read. What R90 leaves open about text (spaces, digits' case) is
DESIGN CHOICE, log 12; no machine step reads text. -/

namespace Sys2Proof.Machine

/-- The operand of `dec.sym` (R90): a code point, or a symbol resolved against the ROM at assembly. -/
inductive SymOperand where
  | number (cp : CodePoint)
  /-- `M(i)`, which denotes RomMain(i). -/
  | main (i : MainIndex)
  /-- `T(j)`, which denotes RomTail(j). -/
  | tail (j : TailIndex)
deriving DecidableEq, Repr

/-- One line of assembler text: a command (R90) or a pseudo-instruction (R91). -/
inductive AsmLine where
  | nop
  | encByte (b : Octet)
  | encEnd
  | decSym (o : SymOperand)
  | decEnd
  | stat
  | encMsg (bs : List Octet)
  | decMsg (os : List SymOperand)
  | word (w : CommandWord)
deriving DecidableEq, Repr

/-- The code point an operand denotes under a ROM (R90). -/
def SymOperand.resolveIn (r : Repertoire) : SymOperand → CodePoint
  | .number cp => cp
  | .main i => romMain r i
  | .tail j => romTail r j

/-- The command words of a line under a ROM (R90, R91). -/
def assemble (r : Repertoire) : AsmLine → List CommandWord
  | .nop => [encode .nop]
  | .encByte b => [encode (.encByte b)]
  | .encEnd => [encode .encEnd]
  | .decSym o => [encode (.decSym (o.resolveIn r))]
  | .decEnd => [encode .decEnd]
  | .stat => [encode .stat]
  | .encMsg bs => (Sys2Proof.Machine.encMsg bs).map encode
  | .decMsg os => (Sys2Proof.Machine.decMsg (os.map (SymOperand.resolveIn r))).map encode
  | .word w => [w]

/-- All of a list, when each is there. -/
def allOf {α : Type} : List (Option α) → Option (List α)
  | [] => some []
  | none :: _ => none
  | some a :: os => (allOf os).map (a :: ·)

/-- The digits in rising order of value: the first ten are decimal, all sixteen hexadecimal (R90). -/
def digits : List Char := "0123456789abcdef".toList

/-- The value of a digit of a base of at most 16: its position among the base's digits, in either case (log 12). -/
def digitIn (base : Nat) (c : Char) : Option Nat := (digits.take base).idxOf? c.toLower

/-- A number in one base, the most significant digit first, with at least one digit. -/
def readDigits (base : Nat) (cs : List Char) : Option Nat :=
  if cs.isEmpty then none
  else (allOf (cs.map (digitIn base))).map (List.foldl (fun v d => base * v + d) 0)

/-- `0x` and hexadecimal digits (R90). -/
def readHex : List Char → Option Nat
  | '0' :: 'x' :: cs => readDigits 16 cs
  | _ => none

/-- "as 0xNN or decimal" (R90). -/
def readNumber (cs : List Char) : Option Nat :=
  match readHex cs with
  | some v => some v
  | none => readDigits 10 cs

/-- The value as a bit vector, when it fits: a number too wide for its operand is no operand. -/
def fitting (w : Nat) : Option Nat → Option (BitVec w)
  | some v => if v < 2 ^ w then some (BitVec.ofNat w v) else none
  | none => none

/-- Without the spaces at both ends. -/
def trimmed (cs : List Char) : List Char :=
  ((cs.dropWhile Char.isWhitespace).reverse.dropWhile Char.isWhitespace).reverse

/-- The index between the parentheses of `M(i)` and `T(j)`. -/
def readIndex (w : Nat) (cs : List Char) : Option (BitVec w) :=
  match cs.reverse with
  | ')' :: ds => fitting w (readNumber ds.reverse)
  | _ => none

/-- An octet operand (R90). -/
def readOctet (cs : List Char) : Option Octet := fitting 8 (readNumber (trimmed cs))

/-- A code point operand (R90): hexadecimal, `M(i)` or `T(j)`. -/
def readSymOperand (cs : List Char) : Option SymOperand :=
  match trimmed cs with
  | 'M' :: '(' :: ds => (readIndex 11 ds).map .main
  | 'T' :: '(' :: ds => (readIndex 3 ds).map .tail
  | ds => (fitting 21 (readHex ds)).map .number

/-- Operands separated by commas; none at all where there is no text (R91: n "may be 0"). -/
def readList {α : Type} (read : List Char → Option α) (cs : List Char) : Option (List α) :=
  if (trimmed cs).isEmpty then some [] else allOf ((cs.splitOn ',').map read)

/-- What a line of text is. -/
inductive ReadLine where
  /-- Nothing but spaces and a comment. -/
  | blank
  | line (l : AsmLine)
  /-- No line of R90 or R91. -/
  | notAssembler
deriving DecidableEq, Repr

def ReadLine.ofOption : Option AsmLine → ReadLine
  | some l => .line l
  | none => .notAssembler

/-- A line that takes no operand. -/
def withoutOperand (l : AsmLine) (operand : List Char) : ReadLine :=
  if operand.isEmpty then .line l else .notAssembler

/-- Read a mnemonic with its operand text (R90, R91). -/
def readCommand (mnemonic operand : List Char) : ReadLine :=
  if mnemonic = ['n', 'o', 'p'] then withoutOperand .nop operand
  else if mnemonic = ['e', 'n', 'c', '.', 'b', 'y', 't', 'e'] then .ofOption ((readOctet operand).map .encByte)
  else if mnemonic = ['e', 'n', 'c', '.', 'e', 'n', 'd'] then withoutOperand .encEnd operand
  else if mnemonic = ['d', 'e', 'c', '.', 's', 'y', 'm'] then
    .ofOption ((readSymOperand operand).map .decSym)
  else if mnemonic = ['d', 'e', 'c', '.', 'e', 'n', 'd'] then withoutOperand .decEnd operand
  else if mnemonic = ['s', 't', 'a', 't'] then withoutOperand .stat operand
  else if mnemonic = ['e', 'n', 'c', '.', 'm', 's', 'g'] then
    .ofOption ((readList readOctet operand).map .encMsg)
  else if mnemonic = ['d', 'e', 'c', '.', 'm', 's', 'g'] then
    .ofOption ((readList readSymOperand operand).map .decMsg)
  else if mnemonic = ['.', 'w', 'o', 'r', 'd'] then
    .ofOption ((fitting 32 (readHex operand)).map .word)
  else .notAssembler

/-- Read one line of text (R90: "one command per line", "A `;` starts a comment"). -/
def readLine (text : List Char) : ReadLine :=
  let code := trimmed (text.takeWhile (· ≠ ';'))
  if code.isEmpty then .blank
  else
    readCommand (code.takeWhile fun c => !c.isWhitespace)
      (trimmed (code.dropWhile fun c => !c.isWhitespace))

/-- The command words of one line of text under a ROM; `none` where it is no line of R90 or R91. -/
def assembleText (r : Repertoire) (text : List Char) : Option (List CommandWord) :=
  match readLine text with
  | .blank => some []
  | .line l => some (assemble r l)
  | .notAssembler => none

end Sys2Proof.Machine
end

