-- ==== Sys2Proof/Machine/Reference.lean ====
section
/-! DEFINITION. The whole-message functions of spec/40_reference_functions.md, over the bit sequences of
spec/00_scope.md R11. The spec calls them `encode` and `decode`; here they are `encodeMessage` and
`decodeMessage`, since `encode` and `decode` are those of command words. -/

namespace Sys2Proof.Machine.Reference

/-- `bits(v, w)` (R11): the `w` bits of `v`, the most significant first. -/
def bits (v w : Nat) : List Bool := (List.range w).map fun k => v.testBit (w - 1 - k)

/-- `val(s)` (R11): the value of a bit sequence read most significant bit first. -/
def val (s : List Bool) : Nat := s.foldl (fun v b => 2 * v + b.toNat) 0

/-- `s[a..b)` (R11). -/
def slice (s : List Bool) (a b : Nat) : List Bool := (s.drop a).take (b - a)

/-- `stream(bytes)` (R58, R110). -/
def stream (bytes : List Octet) : List Bool := bytes.flatMap fun b => bits b.toNat 8

/-- The full groups `g_k = val(S[11k .. 11k+11))` (R111). -/
def fullGroups (bytes : List Octet) : List Group :=
  (List.range ((stream bytes).length / 11)).map fun k =>
    .main (BitVec.ofNat 11 (val (slice (stream bytes) (11 * k) (11 * k + 11))))

/-- `present`, the number of bits left over after the full groups (R111). -/
def present (bytes : List Octet) : Nat := (stream bytes).length % 11

/-- `t`, the value of the bits left over (R112). -/
def leftOver (bytes : List Octet) : Nat :=
  val (slice (stream bytes) (11 * ((stream bytes).length / 11)) (stream bytes).length)

/-- `toGroups(bytes)` (R113). -/
def toGroups (bytes : List Octet) : List Group :=
  fullGroups bytes ++ (finalGroup (present bytes) (leftOver bytes)).toList

/-- The spec's `encode(bytes)` (R114): total, no errors (R115). -/
def encodeMessage (r : Repertoire) (bytes : List Octet) : List CodePoint :=
  (toGroups bytes).map (symbolOf r)

/-- The scan of R123 from position `k` on, where `afterTail` says whether the code point before was a tail:
the groups, or the first error with its position. The tail check comes before the lookup. -/
def scan (r : Repertoire) : (afterTail : Bool) → (k : Nat) → List CodePoint →
    Except (Nat × MessageError) (List Group)
  | _, _, [] => .ok []
  | afterTail, k, c :: cs =>
    if afterTail then .error (k, .malformedInput)
    else
      match resolve r c with
      | none => .error (k, .invalidCharacter)
      | some g =>
        match scan r g.isTail (k + 1) cs with
        | .ok gs => .ok (g :: gs)
        | .error e => .error e

/-- The reconstructed stream of a list of groups (R61, R121 step 2). -/
def groupStream (gs : List Group) : List Bool := gs.flatMap fun g => bits g.value g.width

/-- `r = L mod 8`, the number of bits stripped (R121 step 3). -/
def stripped (gs : List Group) : Nat := (groupStream gs).length % 8

/-- `K`, the bits kept (R121 step 3). -/
def kept (gs : List Group) : List Bool :=
  slice (groupStream gs) 0 ((groupStream gs).length - stripped gs)

/-- The bits removed (R121, R125). -/
def removed (gs : List Group) : List Bool :=
  slice (groupStream gs) ((groupStream gs).length - stripped gs) (groupStream gs).length

/-- The octets of a bit sequence, 8 bits each from the first on (R61, R121). -/
def octetsOf (s : List Bool) : List Octet :=
  (List.range (s.length / 8)).map fun k => BitVec.ofNat 8 (val (slice s (8 * k) (8 * k + 8)))

/-- `fromGroups(gs)` (R121). Its step-4 length check can never fail (R122); it is kept as the spec writes it. -/
def fromGroups (padCheck : Bool) (gs : List Group) : Except MessageError (List Octet) :=
  if (kept gs).length % 8 ≠ 0 then .error .malformedInput
  else if padCheck = true ∧ removed gs ≠ bits (ones (stripped gs)) (stripped gs) then .error .malformedInput
  else .ok (octetsOf (kept gs))

/-- The spec's `decode(s)` (R123). -/
def decodeMessage (c : Config) (s : List CodePoint) : Except MessageError (List Octet) :=
  match scan c.rom false 0 s with
  | .error e => .error e.2
  | .ok gs => fromGroups c.padCheck gs

/-- The command at which R123 returns an error, counting the DEC_SYMs of the string from 0 and then its
DEC_END: the position the scan stops at, or the DEC_END where the padding check fails (R127). -/
def failsAt (c : Config) (s : List CodePoint) : Option Nat :=
  match scan c.rom false 0 s with
  | .error e => some e.1
  | .ok gs =>
    match fromGroups c.padCheck gs with
    | .error _ => some s.length
    | .ok _ => none

end Sys2Proof.Machine.Reference
end

