-- ==== Sys2Proof/Safety.lean ====
section
/-! DEFINITION. The states the block can hold, and a safe run. -/

namespace Sys2Proof.Machine

/-- The encoder invariant (R24). -/
def Encoder.Inv (e : Encoder) : Prop := e.cnt.toNat ≤ 10 ∧ e.acc.toNat < 2 ^ e.cnt.toNat

/-- The decoder invariant (R26). -/
def Decoder.Inv (d : Decoder) : Prop := d.acc.toNat < 2 ^ d.cnt.toNat

/-- The states of the decoder's message state machine (R32). -/
inductive Phase where
  | accept
  | afterTail
  | errIC
  | errMI
deriving DecidableEq, Repr

/-- The state given by `(D.tail, D.err)` (R32); `none` for the two combinations that "never occur". -/
def Decoder.phase (d : Decoder) : Option Phase :=
  match d.tail, d.err with
  | false, none => some .accept
  | true, none => some .afterTail
  | false, some .invalidCharacter => some .errIC
  | true, some .malformedInput => some .errMI
  | true, some .invalidCharacter => none
  | false, some .malformedInput => none

/-- What every state reached from reset meets (R24, R26, R32, R231). The configuration is well-formed by its
type (R9). -/
structure State.Inv (s : State) : Prop where
  enc : s.enc.Inv
  dec : s.dec.Inv
  phase : s.dec.phase ≠ none

/-- A run from `s` that is never stopped, however many steps it takes. -/
def SafeRun (s : State) : Prop := ∀ k, ∃ t, Sys2Proof.core.run k s = .next t

/-- The machine `n` steps later, as the record of a run: `k` steps take the first `k` inputs of the port. -/
def RunsTo (s : State) (k : Nat) (t : State) : Prop := Sys2Proof.core.run k s = .next t

end Sys2Proof.Machine
end

