-- ==== Sys2Proof/Certificates/Slice0/Obligations.lean ====
section
/-! DEFINITION. The statements for the provers. Each names the rule of spec/ it formalises. Where a statement
assumes an invariant of an engine, it does so because the model stops by name outside it (log 6); that every
step keeps the invariant is a statement of its own (StepKeepsInvariant). That pending inputs stand in `port` and
delivered responses in `responses` is the model's choice throughout (logs 4 and 5). -/

open Sys2Proof Sys2Proof.Machine

/-! ## Encoding -/

/-- Decoding the word of a well-formed command gives the command back (30_encoding.md section 2). That the words of
a reserved opcode are commands too is the model's choice (log 13, DEDUCED). -/
def Obligations.DecodeOfEncode : Prop :=
  ∀ i : Instr, i.wf = true → decode (encode i) = .ok i

/-- A word the decoder takes has one meaning: its command is well-formed and encodes to that word. That the words of
a reserved opcode are commands too is the model's choice (log 13, DEDUCED). -/
def Obligations.EncodeOfDecode : Prop :=
  ∀ (w : CommandWord) (i : Instr), decode w = .ok i → i.wf = true ∧ encode i = w

/-- R88: a word is one of the six commands exactly when the formula of `legal(w)` holds, and the operands are
DATA[7:0] and DATA[20:0]. -/
def Obligations.LegalWordsAreTheSixCommands : Prop :=
  ∀ w : CommandWord,
    ((∃ i, decode w = .ok i ∧ i.isReserved = false) ↔
      w.extractLsb' 21 7 = 0#7 ∧
        ((w.extractLsb' 28 4 = 0x0#4 ∧ w.extractLsb' 0 21 = 0#21) ∨
          (w.extractLsb' 28 4 = 0x1#4 ∧ w.extractLsb' 8 13 = 0#13) ∨
          (w.extractLsb' 28 4 = 0x2#4 ∧ w.extractLsb' 0 21 = 0#21) ∨
          w.extractLsb' 28 4 = 0x3#4 ∨
          (w.extractLsb' 28 4 = 0x4#4 ∧ w.extractLsb' 0 21 = 0#21) ∨
          (w.extractLsb' 28 4 = 0x5#4 ∧ w.extractLsb' 0 21 = 0#21))) ∧
    (∀ b, decode w = .ok (.encByte b) → b = w.extractLsb' 0 8) ∧
    (∀ cp, decode w = .ok (.decSym cp) → cp = w.extractLsb' 0 21)

/-- R85: a word is the command of the row whose match and mask it meets, and every word that meets none of the
first six rows is illegal. R85 has ONE reserved row, OP 6 to 15, with no match and mask of its own. That the
decoder makes its words commands of the two reserved rows of opcode_table.json, as the seventh and the eighth
clause say, is the model's choice (log 13, DEDUCED). -/
def Obligations.OpcodeMapByMatchAndMask : Prop :=
  ∀ w : CommandWord,
    (decode w = .ok .nop ↔ w &&& 0xFFFFFFFF#32 = 0x00000000#32) ∧
    ((∃ b, decode w = .ok (.encByte b)) ↔ w &&& 0xFFFFFF00#32 = 0x10000000#32) ∧
    (decode w = .ok .encEnd ↔ w &&& 0xFFFFFFFF#32 = 0x20000000#32) ∧
    ((∃ cp, decode w = .ok (.decSym cp)) ↔ w &&& 0xFFE00000#32 = 0x30000000#32) ∧
    (decode w = .ok .decEnd ↔ w &&& 0xFFFFFFFF#32 = 0x40000000#32) ∧
    (decode w = .ok .stat ↔ w &&& 0xFFFFFFFF#32 = 0x50000000#32) ∧
    ((∃ op rsv data, decode w = .ok (.reservedOp67 op rsv data)) ↔
      w &&& 0xE0000000#32 = 0x60000000#32) ∧
    ((∃ op rsv data, decode w = .ok (.reservedOp8F op rsv data)) ↔
      w &&& 0x80000000#32 = 0x80000000#32) ∧
    (legal w = true ↔
      w &&& 0xFFFFFFFF#32 = 0x00000000#32 ∨ w &&& 0xFFFFFF00#32 = 0x10000000#32 ∨
        w &&& 0xFFFFFFFF#32 = 0x20000000#32 ∨ w &&& 0xFFE00000#32 = 0x30000000#32 ∨
        w &&& 0xFFFFFFFF#32 = 0x40000000#32 ∨ w &&& 0xFFFFFFFF#32 = 0x50000000#32)

/-- Words of the legality table of 95_test_vectors.md section 2.3. For the three illegal ones the table names no
command: that the decoder makes 0x8FFFFFFF the command of a reserved row of opcode_table.json, and rejects
0x10000100 and 0x30200000 under a name, is the model's choice (log 13, DEDUCED). -/
def Obligations.SpecWordsDecode : Prop :=
  decode 0x00000000#32 = .ok .nop ∧
  decode 0x100000FF#32 = .ok (.encByte 0xFF#8) ∧
  decode 0x20000000#32 = .ok .encEnd ∧
  decode 0x301FFFFF#32 = .ok (.decSym 0x1FFFFF#21) ∧
  decode 0x40000000#32 = .ok .decEnd ∧
  decode 0x50000000#32 = .ok .stat ∧
  decode 0x8FFFFFFF#32 = .ok (.reservedOp8F 8#4 0x7F#7 0x1FFFFF#21) ∧
  decode 0x10000100#32 = .error .nonzeroUnusedData ∧
  decode 0x30200000#32 = .error .nonzeroReservedField

/-! ## A step -/

/-- A step with a command word next on the port runs the command the word decodes to, in the state with that
word taken off the port (R8). -/
def Obligations.StepRunsDecodedCommand : Prop :=
  ∀ (s : State) (w : CommandWord) (rest : List HostEvent) (i : Instr),
    s.port = .command w :: rest → decode w = .ok i → step s = exec i { s with port := rest }

/-- The step after a command is placed runs exactly that command. -/
def Obligations.StepRunsPlacedCommand : Prop :=
  ∀ (s : State) (i : Instr), i.wf = true → step (s.withFetchWord 32 (encode i).toNat) = exec i s

/-- R193: an illegal word responds ILLEGAL_COMMAND, emits nothing and changes neither engine. -/
def Obligations.IllegalWordIsAnswered : Prop :=
  ∀ (s : State) (w : CommandWord) (rest : List HostEvent),
    s.port = .command w :: rest → legal w = false →
    step s = .next { s with port := rest, responses := s.responses ++ [⟨.illegalCommand, [], none⟩] }

/-- R230: the reset input sets every engine field to its reset value, leaves the ROM and PAD_CHECK, and
produces no response. That the inputs behind the reset stay pending (log 4) and that the responses already
delivered stay recorded (log 5) is the model's choice, not R230's. -/
def Obligations.ResetInputClearsBothEngines : Prop :=
  ∀ (s : State) (rest : List HostEvent), s.port = .reset :: rest →
    step s = .next { s with port := rest, enc := ⟨0#10, 0#4⟩, dec := ⟨0#7, 0#3, false, none⟩ }

/-- R216: with nothing on the port the block holds its state (that such a step is a next state and not a stop
is the model's choice, log 4). -/
def Obligations.IdleStepHoldsState : Prop :=
  ∀ s : State, s.port = [] → step s = .next s

/-- R38: the reset values, under any configuration. -/
def Obligations.ResetValues : Prop :=
  ∀ c : Config,
    (State.resetWith c).enc.acc = 0#10 ∧ (State.resetWith c).enc.cnt = 0#4 ∧
    (State.resetWith c).dec.acc = 0#7 ∧ (State.resetWith c).dec.cnt = 0#3 ∧
    (State.resetWith c).dec.tail = false ∧ (State.resetWith c).dec.err = none ∧
    statusWord (State.resetWith c).enc (State.resetWith c).dec = 0x00000000#32 ∧
    (State.resetWith c).config = c ∧ ∃ c₀, State.reset = State.resetWith c₀

/-- R9, R235: a configuration runs exactly when the four conditions of R9 hold, and is refused by name
otherwise; a block that boots holds the tables and PAD_CHECK it was given, its engines at reset. -/
def Obligations.BootAcceptsExactlyWellFormedTables : Prop :=
  ∀ (r : Repertoire) (p : Bool),
    ((∀ i j : MainIndex, romMain r i = romMain r j → i = j) ∧
        (∀ i j : TailIndex, romTail r i = romTail r j → i = j) ∧
        (∀ (i : MainIndex) (j : TailIndex), romMain r i ≠ romTail r j) ∧
        (∀ i : MainIndex, (romMain r i).toNat ≤ 0x10FFFF) ∧
        (∀ j : TailIndex, (romTail r j).toNat ≤ 0x10FFFF) →
      ∃ c : Config, c.rom = r ∧ c.padCheck = p ∧ boot r p = .next (State.resetWith c)) ∧
    (¬ ((∀ i j : MainIndex, romMain r i = romMain r j → i = j) ∧
        (∀ i j : TailIndex, romTail r i = romTail r j → i = j) ∧
        (∀ (i : MainIndex) (j : TailIndex), romMain r i ≠ romTail r j) ∧
        (∀ i : MainIndex, (romMain r i).toNat ≤ 0x10FFFF) ∧
        (∀ j : TailIndex, (romTail r j).toNat ≤ 0x10FFFF)) →
      boot r p = .refused .illFormedConfiguration)

/-! ## The ROM -/

/-- R53, R54: the reverse lookups find the index of a code point, and only of a code point in the table. -/
def Obligations.ReverseLookupFindsTheIndex : Prop :=
  ∀ (c : Config) (cp : CodePoint),
    (∀ i : MainIndex, idxMain c.rom cp = some i ↔ romMain c.rom i = cp) ∧
    (idxMain c.rom cp = none ↔ ∀ i : MainIndex, romMain c.rom i ≠ cp) ∧
    (∀ j : TailIndex, idxTail c.rom cp = some j ↔ romTail c.rom j = cp) ∧
    (idxTail c.rom cp = none ↔ ∀ j : TailIndex, romTail c.rom j ≠ cp)

/-- R55: no code point is in both tables, none above 0x10FFFF is in either, and the lookups are inverse.
The spec derives most of it from R51 to R54 and R9. -/
def Obligations.TablesAreDisjointAndInvertible : Prop :=
  ∀ c : Config,
    (∀ cp : CodePoint, idxMain c.rom cp = none ∨ idxTail c.rom cp = none) ∧
    (∀ cp : CodePoint, 0x10FFFF < cp.toNat → idxMain c.rom cp = none ∧ idxTail c.rom cp = none) ∧
    (∀ i : MainIndex, idxMain c.rom (romMain c.rom i) = some i) ∧
    (∀ j : TailIndex, idxTail c.rom (romTail c.rom j) = some j)

/-! ## Control commands -/

/-- R190: NOP is the word 0x00000000 exactly; it responds OK and changes nothing, in any state. -/
def Obligations.NopCompletes : Prop :=
  (∀ w : CommandWord, decode w = .ok .nop ↔ w = 0x00000000#32) ∧
  ∀ s : State, exec .nop s = .next { s with responses := s.responses ++ [⟨.ok, [], none⟩] }

/-- R191, R34: STAT is the word 0x50000000 exactly; it responds OK with the STATUS word, whose fields are those
of the two engines, and changes nothing. -/
def Obligations.StatReturnsStatus : Prop :=
  (∀ w : CommandWord, decode w = .ok .stat ↔ w = 0x50000000#32) ∧
  ∀ s : State, s.enc.Inv → s.dec.Inv →
    ∃ stat : BitVec 32,
      exec .stat s = .next { s with responses := s.responses ++ [⟨.ok, [], some stat⟩] } ∧
      stat.extractLsb' 0 4 = s.enc.cnt ∧
      stat.extractLsb' 4 3 = s.dec.cnt ∧
      stat.extractLsb' 7 1 = BitVec.ofBool s.dec.tail ∧
      stat.extractLsb' 8 2 = (match s.dec.err with
        | none => 0#2
        | some .invalidCharacter => 1#2
        | some .malformedInput => 2#2) ∧
      stat.extractLsb' 10 10 = s.enc.acc ∧
      stat.extractLsb' 20 7 = s.dec.acc ∧
      stat.extractLsb' 27 5 = 0#5

/-- R193 for the two reserved rows of opcode_table.json (log 13): they respond ILLEGAL_COMMAND and change
nothing. -/
def Obligations.ReservedCommandsComplete : Prop :=
  ∀ (s : State) (op : BitVec 4) (rsv : BitVec 7) (data : BitVec 21),
    exec (.reservedOp67 op rsv data) s =
      .next { s with responses := s.responses ++ [⟨.illegalCommand, [], none⟩] } ∧
    exec (.reservedOp8F op rsv data) s =
      .next { s with responses := s.responses ++ [⟨.illegalCommand, [], none⟩] }

/-! ## Encoder commands -/

/-- R142: ENC_BYTE by incoming count. Nothing is truncated: the fields and the group are given by their values.
The spec derives it from R140. -/
def Obligations.EncByteByCount : Prop :=
  ∀ (s : State) (b : Octet), s.enc.Inv →
    (s.enc.cnt.toNat ≤ 2 → ∃ e : Encoder,
      e.acc.toNat = s.enc.acc.toNat <<< 8 ||| b.toNat ∧
      e.cnt.toNat = s.enc.cnt.toNat + 8 ∧
      exec (.encByte b) s =
        .next { s with enc := e, responses := s.responses ++ [⟨.ok, [], none⟩] }) ∧
    (3 ≤ s.enc.cnt.toNat → ∃ (e : Encoder) (g : MainIndex),
      g.toNat = s.enc.acc.toNat <<< (11 - s.enc.cnt.toNat) ||| b.toNat / 2 ^ (s.enc.cnt.toNat - 3) ∧
      e.acc.toNat = b.toNat % 2 ^ (s.enc.cnt.toNat - 3) ∧
      e.cnt.toNat = s.enc.cnt.toNat - 3 ∧
      exec (.encByte b) s =
        .next { s with
          enc := e
          responses := s.responses ++ [⟨.ok, [.sym (romMain s.config.rom g)], none⟩] })

/-- R145: ENC_END by count. The spec derives it from R144. -/
def Obligations.EncEndByCount : Prop :=
  ∀ s : State, s.enc.Inv →
    (s.enc.cnt.toNat = 0 →
      exec .encEnd s =
        .next { s with enc := ⟨0#10, 0#4⟩, responses := s.responses ++ [⟨.ok, [], none⟩] }) ∧
    (1 ≤ s.enc.cnt.toNat ∧ s.enc.cnt.toNat ≤ 3 → ∃ v : TailIndex,
      v.toNat = s.enc.acc.toNat <<< (3 - s.enc.cnt.toNat) ||| (2 ^ (3 - s.enc.cnt.toNat) - 1) ∧
      exec .encEnd s =
        .next { s with
          enc := ⟨0#10, 0#4⟩
          responses := s.responses ++ [⟨.ok, [.sym (romTail s.config.rom v)], none⟩] }) ∧
    (4 ≤ s.enc.cnt.toNat → ∃ v : MainIndex,
      v.toNat = s.enc.acc.toNat <<< (11 - s.enc.cnt.toNat) ||| (2 ^ (11 - s.enc.cnt.toNat) - 1) ∧
      exec .encEnd s =
        .next { s with
          enc := ⟨0#10, 0#4⟩
          responses := s.responses ++ [⟨.ok, [.sym (romMain s.config.rom v)], none⟩] })

/-! ## Decoder commands -/

/-- R161: DEC_SYM with a stored error repeats it and changes nothing. -/
def Obligations.DecSymRepeatsStoredError : Prop :=
  ∀ (s : State) (cp : CodePoint), s.dec.Inv →
    (s.dec.err = some .invalidCharacter →
      exec (.decSym cp) s =
        .next { s with responses := s.responses ++ [⟨.invalidCharacter, [], none⟩] }) ∧
    (s.dec.err = some .malformedInput →
      exec (.decSym cp) s =
        .next { s with responses := s.responses ++ [⟨.malformedInput, [], none⟩] })

/-- R162: DEC_SYM after a tail code point stores and reports MALFORMED_INPUT, whatever the code point is. -/
def Obligations.DecSymAfterTailIsMalformed : Prop :=
  ∀ (s : State) (cp : CodePoint), s.dec.Inv → s.dec.err = none → s.dec.tail = true →
    exec (.decSym cp) s =
      .next { s with
        dec := ⟨s.dec.acc, s.dec.cnt, true, some .malformedInput⟩
        responses := s.responses ++ [⟨.malformedInput, [], none⟩] }

/-- R163: DEC_SYM of a code point in neither table, and every code point above 0x10FFFF is one, stores and
reports INVALID_CHARACTER. -/
def Obligations.DecSymOutsideTablesIsInvalid : Prop :=
  ∀ (s : State) (cp : CodePoint), s.dec.Inv → s.dec.err = none → s.dec.tail = false →
    ((∀ i, romMain s.config.rom i ≠ cp) ∧ (∀ j, romTail s.config.rom j ≠ cp) ∨ 0x10FFFF < cp.toNat) →
    exec (.decSym cp) s =
      .next { s with
        dec := ⟨s.dec.acc, s.dec.cnt, false, some .invalidCharacter⟩
        responses := s.responses ++ [⟨.invalidCharacter, [], none⟩] }

/-- R164: DEC_SYM on an accepted code point, by incoming count: the octets emitted and the bits left. A main
code point keeps `D.tail` at 0, a tail code point sets it (R28). The spec derives R164 from R160. -/
def Obligations.DecSymTakesGroupByCount : Prop :=
  ∀ s : State, s.dec.Inv → s.dec.err = none → s.dec.tail = false →
    (∀ v : MainIndex, s.dec.cnt.toNat ≤ 4 → ∃ (d : Decoder) (o : Octet),
      o.toNat = s.dec.acc.toNat <<< (8 - s.dec.cnt.toNat) ||| v.toNat / 2 ^ (s.dec.cnt.toNat + 3) ∧
      d.acc.toNat = v.toNat % 2 ^ (s.dec.cnt.toNat + 3) ∧
      d.cnt.toNat = s.dec.cnt.toNat + 3 ∧ d.tail = false ∧ d.err = none ∧
      exec (.decSym (romMain s.config.rom v)) s =
        .next { s with dec := d, responses := s.responses ++ [⟨.ok, [.oct o], none⟩] }) ∧
    (∀ v : MainIndex, 5 ≤ s.dec.cnt.toNat → ∃ (d : Decoder) (o₁ o₂ : Octet),
      o₁.toNat = s.dec.acc.toNat <<< (8 - s.dec.cnt.toNat) ||| v.toNat / 2 ^ (s.dec.cnt.toNat + 3) ∧
      o₂.toNat = v.toNat / 2 ^ (s.dec.cnt.toNat - 5) % 2 ^ 8 ∧
      d.acc.toNat = v.toNat % 2 ^ (s.dec.cnt.toNat - 5) ∧
      d.cnt.toNat = s.dec.cnt.toNat - 5 ∧ d.tail = false ∧ d.err = none ∧
      exec (.decSym (romMain s.config.rom v)) s =
        .next { s with dec := d, responses := s.responses ++ [⟨.ok, [.oct o₁, .oct o₂], none⟩] }) ∧
    (∀ v : TailIndex, s.dec.cnt.toNat ≤ 4 → ∃ d : Decoder,
      d.acc.toNat = s.dec.acc.toNat <<< 3 ||| v.toNat ∧
      d.cnt.toNat = s.dec.cnt.toNat + 3 ∧ d.tail = true ∧ d.err = none ∧
      exec (.decSym (romTail s.config.rom v)) s =
        .next { s with dec := d, responses := s.responses ++ [⟨.ok, [], none⟩] }) ∧
    (∀ v : TailIndex, 5 ≤ s.dec.cnt.toNat → ∃ (d : Decoder) (o : Octet),
      o.toNat = s.dec.acc.toNat <<< (8 - s.dec.cnt.toNat) ||| v.toNat / 2 ^ (s.dec.cnt.toNat - 5) ∧
      d.acc.toNat = v.toNat % 2 ^ (s.dec.cnt.toNat - 5) ∧
      d.cnt.toNat = s.dec.cnt.toNat - 5 ∧ d.tail = true ∧ d.err = none ∧
      exec (.decSym (romTail s.config.rom v)) s =
        .next { s with dec := d, responses := s.responses ++ [⟨.ok, [.oct o], none⟩] })

/-- R167, R170, R171: DEC_END reports a stored error, or MALFORMED_INPUT where PAD_CHECK holds and a stripped
bit is 0, or OK; it emits nothing and clears D in every case. -/
def Obligations.DecEndReportsAndClears : Prop :=
  ∀ s : State, s.dec.Inv → ∃ code : ResponseCode,
    exec .decEnd s =
      .next { s with
        dec := ⟨0#7, 0#3, false, none⟩
        responses := s.responses ++ [⟨code, [], none⟩] } ∧
    (s.dec.err = some .invalidCharacter → code = .invalidCharacter) ∧
    (s.dec.err = some .malformedInput → code = .malformedInput) ∧
    (s.dec.err = none → s.config.padCheck = false → code = .ok) ∧
    (s.dec.err = none → s.config.padCheck = true →
      (s.dec.acc.toNat = 2 ^ s.dec.cnt.toNat - 1 → code = .ok) ∧
      (s.dec.acc.toNat ≠ 2 ^ s.dec.cnt.toNat - 1 → code = .malformedInput))

/-- R32: the decoder's message state machine. A state is ACCEPT, AFTER_TAIL, ERR_IC or ERR_MI; a main code
point keeps ACCEPT, a tail code point leads to AFTER_TAIL, any other to ERR_IC; from AFTER_TAIL every code
point leads to ERR_MI; the error states stay; DEC_END leads to ACCEPT. -/
def Obligations.DecoderStateMachine : Prop :=
  ∀ (s : State) (cp : CodePoint) (p : Phase), s.dec.Inv → s.dec.phase = some p →
    (∃ t, exec .decEnd s = .next t ∧ t.dec.phase = some .accept) ∧
    ∃ t, exec (.decSym cp) s = .next t ∧
      (p = .accept → (∃ i, romMain s.config.rom i = cp) → t.dec.phase = some .accept) ∧
      (p = .accept → (∃ j, romTail s.config.rom j = cp) → t.dec.phase = some .afterTail) ∧
      (p = .accept → (∀ i, romMain s.config.rom i ≠ cp) → (∀ j, romTail s.config.rom j ≠ cp) →
        t.dec.phase = some .errIC) ∧
      (p = .afterTail → t.dec.phase = some .errMI) ∧
      (p = .errIC → t.dec.phase = some .errIC) ∧
      (p = .errMI → t.dec.phase = some .errMI)

/-- R204: the first error is the one kept. Whatever code points follow a stored error, every response up to
DEC_END's repeats it, nothing is emitted, and DEC_END, which puts the stored error before the PAD_CHECK
test, returns D to its start state. -/
def Obligations.FirstErrorIsKept : Prop :=
  ∀ (s : State) (cs : List CodePoint) (rest : List HostEvent) (e : MessageError),
    s.dec.Inv → s.dec.err = some e → s.port = commands (decMsg cs) ++ rest →
    RunsTo s (cs.length + 1)
      { s with
        port := rest
        dec := ⟨0#7, 0#3, false, none⟩
        responses := s.responses ++ List.replicate (cs.length + 1) ⟨e.code, [], none⟩ }

/-! ## Frames and responses -/

/-- The frame of the encoder commands (R39, R147): D, the ROM, PAD_CHECK and the inputs still pending stay as
they are, and the responses already delivered stay. -/
def Obligations.EncoderCommandsFrame : Prop :=
  ∀ (s t : State) (b : Octet), exec (.encByte b) s = .next t ∨ exec .encEnd s = .next t →
    t.dec = s.dec ∧ t.config = s.config ∧ t.port = s.port ∧ ∃ r, t.responses = s.responses ++ [r]

/-- The frame of the decoder commands (R39, R166, R172): E, the ROM, PAD_CHECK and the inputs still pending
stay as they are, and the responses already delivered stay. -/
def Obligations.DecoderCommandsFrame : Prop :=
  ∀ (s t : State) (cp : CodePoint), exec (.decSym cp) s = .next t ∨ exec .decEnd s = .next t →
    t.enc = s.enc ∧ t.config = s.config ∧ t.port = s.port ∧ ∃ r, t.responses = s.responses ++ [r]

/-- The frame of NOP, STAT and the reserved commands (R39): they "write nothing"; only a response is added. -/
def Obligations.ControlCommandsFrame : Prop :=
  ∀ (s t : State) (op : BitVec 4) (rsv : BitVec 7) (data : BitVec 21),
    exec .nop s = .next t ∨ exec .stat s = .next t ∨
      exec (.reservedOp67 op rsv data) s = .next t ∨ exec (.reservedOp8F op rsv data) s = .next t →
    ∃ r, t = { s with responses := s.responses ++ [r] }

/-- R39, its last sentence: no command of one engine reads the other engine's state. Another decoder state
changes nothing of what an encoder command does, and the other way round. -/
def Obligations.EnginesDoNotReadEachOther : Prop :=
  ∀ (s t : State) (b : Octet) (cp : CodePoint) (e : Encoder) (d : Decoder),
    (exec (.encByte b) s = .next t → exec (.encByte b) { s with dec := d } = .next { t with dec := d }) ∧
    (exec .encEnd s = .next t → exec .encEnd { s with dec := d } = .next { t with dec := d }) ∧
    (exec (.decSym cp) s = .next t → exec (.decSym cp) { s with enc := e } = .next { t with enc := e }) ∧
    (exec .decEnd s = .next t → exec .decEnd { s with enc := e } = .next { t with enc := e })

/-- R86, R87: every command word, legal or not, whose step completes adds exactly one response; a STATUS value
is present only in the response to STAT; and the output items are bounded per command. The spec derives R87 from
the commands' own rules. -/
def Obligations.OneBoundedResponsePerCommand : Prop :=
  ∀ (s t : State) (w : CommandWord) (rest : List HostEvent),
    s.port = .command w :: rest → step s = .next t →
    ∃ r, t.responses = s.responses ++ [r] ∧ t.port = rest ∧ r.out.length ≤ 2 ∧
      (r.stat.isSome = true ↔ decode w = .ok .stat) ∧
      match decode w with
      | .ok (.encByte _) | .ok .encEnd => r.out.length ≤ 1 ∧ ∀ o ∈ r.out, ∃ cp, o = .sym cp
      | .ok (.decSym _) => ∀ o ∈ r.out, ∃ b, o = .oct b
      | .ok .nop | .ok .decEnd | .ok .stat | .ok (.reservedOp67 _ _ _) | .ok (.reservedOp8F _ _ _)
      | .error _ => r.out = []

/-- R56: no step, of a command, an illegal word or the reset input, changes the ROM or PAD_CHECK. -/
def Obligations.ConfigurationIsNeverWritten : Prop :=
  ∀ (k : Nat) (s t : State), RunsTo s k t → t.config = s.config

/-! ## Invariants and stops -/

/-- R231: the state after reset, under any configuration, meets the invariants. -/
def Obligations.ResetMeetsInvariant : Prop :=
  ∀ c : Config, (State.resetWith c).Inv ∧ (State.resetWith c).dec.phase = some .accept

/-- R24, R26, R32, R231: every step keeps the invariants. -/
def Obligations.StepKeepsInvariant : Prop :=
  ∀ s t : State, s.Inv → step s = .next t → t.Inv

/-- From a state that meets the invariants the block is never stopped, whatever the host puts on the port:
"the only command-level fault is ILLEGAL_COMMAND" (R195), and that one is a response. -/
def Obligations.EveryRunIsSafe : Prop :=
  ∀ s : State, s.Inv → SafeRun s

/-- Where the model stops: a command that uses an engine's fields stops by name exactly when they break the
engine's invariant (93_implementation_defined.md section 2; which commands look is the model's choice, log 6). -/
def Obligations.StopsExactlyOutsideInvariants : Prop :=
  ∀ (s : State) (b : Octet) (cp : CodePoint),
    ((∃ f, exec (.encByte b) s = .fault f) ↔ ¬ s.enc.Inv) ∧
    ((∃ f, exec .encEnd s = .fault f) ↔ ¬ s.enc.Inv) ∧
    ((∃ f, exec (.decSym cp) s = .fault f) ↔ ¬ s.dec.Inv) ∧
    ((∃ f, exec .decEnd s = .fault f) ↔ ¬ s.dec.Inv) ∧
    ((∃ f, exec .stat s = .fault f) ↔ ¬ (s.enc.Inv ∧ s.dec.Inv)) ∧
    (∀ (i : Instr) (r : Refusal), exec i s ≠ .refused r)

/-! ## Whole messages -/

/-- R25: after the octets of a message so far, E holds the bits of the stream that do not fill a group.
The spec derives it from R140. -/
def Obligations.EncoderHoldsThePendingBits : Prop :=
  ∀ (s : State) (bs : List Octet) (rest : List HostEvent),
    s.enc.Inv → s.enc.cnt = 0#4 → s.port = commands (bs.map .encByte) ++ rest →
    ∃ t, RunsTo s bs.length t ∧ t.port = rest ∧
      t.enc.cnt.toNat = 8 * bs.length % 11 ∧
      Reference.bits t.enc.acc.toNat t.enc.cnt.toNat =
        Reference.slice (Reference.stream bs) (11 * (8 * bs.length / 11)) (8 * bs.length)

/-- R27: after the code points of a string so far, accepted without error, D holds the last `r = L mod 8` bits
of the reconstructed stream. The spec derives it from R160. -/
def Obligations.DecoderHoldsThePendingBits : Prop :=
  ∀ (s : State) (cs : List CodePoint) (gs : List Group) (rest : List HostEvent),
    s.dec = ⟨0#7, 0#3, false, none⟩ → s.port = commands (cs.map .decSym) ++ rest →
    Reference.scan s.config.rom false 0 cs = .ok gs →
    ∃ t, RunsTo s cs.length t ∧ t.port = rest ∧ t.dec.err = none ∧
      t.dec.cnt.toNat = (Reference.groupStream gs).length % 8 ∧
      Reference.bits t.dec.acc.toNat t.dec.cnt.toNat =
        Reference.slice (Reference.groupStream gs)
          ((Reference.groupStream gs).length - (Reference.groupStream gs).length % 8)
          (Reference.groupStream gs).length

/-- R126: the commands of an encoder message emit exactly `encode` of its octets, every response is OK, and E
ends empty. The spec derives it from R140, R144 and R110 to R114. -/
def Obligations.EncoderMessageComputesEncode : Prop :=
  ∀ (s : State) (bs : List Octet) (rest : List HostEvent),
    s.enc.Inv → s.enc.cnt = 0#4 → s.port = commands (encMsg bs) ++ rest →
    ∃ rs : List Response,
      RunsTo s (bs.length + 1)
        { s with port := rest, enc := ⟨0#10, 0#4⟩, responses := s.responses ++ rs } ∧
      rs.length = bs.length + 1 ∧
      (∀ r ∈ rs, r.code = .ok) ∧
      outItems rs = (Reference.encodeMessage s.config.rom bs).map .sym

/-- R127: the commands of a decoder message compute `decode` of its code points: its result where that
succeeds, with every response OK; else its error, first reported at the command where `decode` fails; and D
ends in its start state. The spec derives it from R160 to R171 and R119 to R123. -/
def Obligations.DecoderMessageComputesDecode : Prop :=
  ∀ (s : State) (cs : List CodePoint) (rest : List HostEvent),
    s.dec = ⟨0#7, 0#3, false, none⟩ → s.port = commands (decMsg cs) ++ rest →
    ∃ rs : List Response,
      RunsTo s (cs.length + 1)
        { s with port := rest, dec := ⟨0#7, 0#3, false, none⟩, responses := s.responses ++ rs } ∧
      rs.length = cs.length + 1 ∧
      stringResult rs = some (Reference.decodeMessage s.config cs) ∧
      firstFailure rs = Reference.failsAt s.config cs ∧
      ∀ bytes, Reference.decodeMessage s.config cs = .ok bytes →
        (∀ r ∈ rs, r.code = .ok) ∧ outItems rs = bytes.map .oct

/-- R124: the stripping identity and the round trip, for every configuration and both values of PAD_CHECK.
The spec derives it from R113, R116 and R121. -/
def Obligations.DecodeOfEncodedMessage : Prop :=
  ∀ (c : Config) (bytes : List Octet),
    (Reference.groupStream (Reference.toGroups bytes)).length =
      8 * bytes.length + paddingBits (8 * bytes.length % 11) ∧
    paddingBits (8 * bytes.length % 11) =
      (Reference.groupStream (Reference.toGroups bytes)).length % 8 ∧
    Reference.decodeMessage c (Reference.encodeMessage c.rom bytes) = .ok bytes

/-- R116: the number of padding bits `encode` adds is given by the bits left over, is at most 7, and reaches
7 and 2. -/
def Obligations.PaddingIsAtMostSeven : Prop :=
  (∀ bytes : List Octet, ∃ pad : Nat,
    (Reference.groupStream (Reference.toGroups bytes)).length = 8 * bytes.length + pad ∧ pad ≤ 7 ∧
    (8 * bytes.length % 11 = 0 → pad = 0) ∧
    (4 ≤ 8 * bytes.length % 11 → pad = 11 - 8 * bytes.length % 11) ∧
    (1 ≤ 8 * bytes.length % 11 → 8 * bytes.length % 11 ≤ 3 → pad = 3 - 8 * bytes.length % 11)) ∧
  (∀ bytes : List Octet, bytes.length = 6 →
    (Reference.groupStream (Reference.toGroups bytes)).length = 48 + 7) ∧
  (∀ bytes : List Octet, bytes.length = 7 →
    (Reference.groupStream (Reference.toGroups bytes)).length = 56 + 2)

/-- R117: the length of an encoding is `ceil(D / 11)`. The spec derives it from R111 to R113. -/
def Obligations.EncodedLength : Prop :=
  ∀ (r : Repertoire) (bytes : List Octet),
    (Reference.encodeMessage r bytes).length = (8 * bytes.length + 10) / 11

/-- R118: a tail symbol appears exactly once and last when `D mod 11` is 1, 2 or 3, and never otherwise; and
`D mod 11` by the number of octets, so that the tail case occurs for `n mod 11` in 3, 7 and 10. -/
def Obligations.TailOnlyLast : Prop :=
  ∀ bytes : List Octet,
    ((8 * bytes.length % 11 = 1 ∨ 8 * bytes.length % 11 = 2 ∨ 8 * bytes.length % 11 = 3) →
      ∃ (ms : List MainIndex) (v : TailIndex),
        Reference.toGroups bytes = ms.map .main ++ [.tail v]) ∧
    (¬ (8 * bytes.length % 11 = 1 ∨ 8 * bytes.length % 11 = 2 ∨ 8 * bytes.length % 11 = 3) →
      ∃ ms : List MainIndex, Reference.toGroups bytes = ms.map .main) ∧
    [0, 8, 5, 2, 10, 7, 4, 1, 9, 6, 3][bytes.length % 11]? = some (8 * bytes.length % 11) ∧
    ((8 * bytes.length % 11 = 1 ∨ 8 * bytes.length % 11 = 2 ∨ 8 * bytes.length % 11 = 3) ↔
      (bytes.length % 11 = 3 ∨ bytes.length % 11 = 7 ∨ bytes.length % 11 = 10))

/-- R82: every encoding is a string of main symbols with at most one tail symbol, at its end; and without
PAD_CHECK the decoder accepts exactly those strings. -/
def Obligations.AcceptedStrings : Prop :=
  ∀ c : Config,
    (∀ bytes, ∃ (ms : List MainIndex) (tail : Option TailIndex),
      Reference.encodeMessage c.rom bytes =
        ms.map (romMain c.rom) ++ tail.toList.map (romTail c.rom)) ∧
    (c.padCheck = false → ∀ s : List CodePoint,
      (∃ bytes, Reference.decodeMessage c s = .ok bytes) ↔
        ∃ (ms : List MainIndex) (tail : Option TailIndex),
          s = ms.map (romMain c.rom) ++ tail.toList.map (romTail c.rom))

/-- R122: the length check of `fromGroups` never fails, so without PAD_CHECK `fromGroups` never fails. -/
def Obligations.LengthCheckNeverFails : Prop :=
  ∀ gs : List Group,
    (Reference.kept gs).length % 8 = 0 ∧
    ∃ bytes, Reference.fromGroups false gs = .ok bytes ∧
      bytes.length = (Reference.groupStream gs).length / 8

/-- R128, R125: what `decode` accepts beyond encodings. The spec derives it from R121 and R123. -/
def Obligations.DecodeIsNotInjective : Prop :=
  ∀ c : Config, c.padCheck = false →
    (∀ j : TailIndex, Reference.decodeMessage c [romTail c.rom j] = .ok []) ∧
    (∀ i : MainIndex, Reference.decodeMessage c [romMain c.rom i] = .ok [i.extractLsb' 3 8]) ∧
    (∀ (i : MainIndex) (j : TailIndex),
      Reference.decodeMessage c [romMain c.rom i, romTail c.rom j] = .ok [i.extractLsb' 3 8]) ∧
    (∀ (ms : List MainIndex) (j : TailIndex), ∃ bytes,
      Reference.decodeMessage c (ms.map (romMain c.rom) ++ [romTail c.rom j]) = .ok bytes ∧
      ((11 * ms.length + 3) % 8 ≥ 3 →
        Reference.decodeMessage c (ms.map (romMain c.rom)) = .ok bytes ∧
        ∀ bytes', Reference.encodeMessage c.rom bytes' ≠
          ms.map (romMain c.rom) ++ [romTail c.rom j]))

/-- R68: whatever order the host interleaves its commands in, each engine ends in the state and gives the
responses, in order, that its own commands alone lead to. -/
def Obligations.InterleavingChangesNothing : Prop :=
  ∀ (s : State) (is : List Instr), s.Inv → (∀ i ∈ is, i.wf = true) → s.port = commands is →
    ∃ (t te td : State) (rs re rd : List Response),
      RunsTo s is.length t ∧ t.responses = s.responses ++ rs ∧ rs.length = is.length ∧
      RunsTo { s with port := commands (is.filter Instr.ofEncoder) } (is.filter Instr.ofEncoder).length te ∧
      te.responses = s.responses ++ re ∧
      RunsTo { s with port := commands (is.filter Instr.ofDecoder) } (is.filter Instr.ofDecoder).length td ∧
      td.responses = s.responses ++ rd ∧
      t.enc = te.enc ∧ t.dec = td.dec ∧
      ((is.zip rs).filter (fun p => p.1.ofEncoder)).map (·.2) = re ∧
      ((is.zip rs).filter (fun p => p.1.ofDecoder)).map (·.2) = rd

/-- R90, R91: the words of assembler lines: a symbolic code point is resolved against the ROM, a message
pseudo-instruction expands to its commands, and `.word` is the raw word. -/
def Obligations.AssemblerLinesExpand : Prop :=
  ∀ (r : Repertoire) (bs : List Octet) (os : List SymOperand) (w : CommandWord) (i : MainIndex) (j : TailIndex),
    assemble r (.decSym (.main i)) = [0x30000000#32 ||| (romMain r i).setWidth 32] ∧
    assemble r (.decSym (.tail j)) = [0x30000000#32 ||| (romTail r j).setWidth 32] ∧
    assemble r (.encMsg bs) = bs.flatMap (fun b => assemble r (.encByte b)) ++ assemble r .encEnd ∧
    assemble r (.decMsg os) = os.flatMap (fun o => assemble r (.decSym o)) ++ assemble r .decEnd ∧
    assemble r (.word w) = [w]
end

