-- ==== Sys2Proof/Laws/Bits.lean ====
section
/-! SUPPORT. The bit sequences of R11: a joined value is the two sequences one after the other, `val` undoes
`bits`, and a stream of chunks of one width is cut back into its chunks. -/

namespace Sys2Proof.Machine

/-- Joining bits is adding, since the low `k` bits of the first are 0 (R15). -/
theorem joinBits_eq {a k b : Nat} (h : b < 2 ^ k) : joinBits a k b = a * 2 ^ k + b := by
  rw [joinBits, ← Nat.shiftLeft_add_eq_or_of_lt h, Nat.shiftLeft_eq]

theorem ones_lt (k : Nat) : ones k < 2 ^ k := by
  simp [ones]

namespace Reference

@[simp] theorem bits_length (v w : Nat) : (bits v w).length = w := by
  simp [bits]

@[simp] theorem bits_zero (v : Nat) : bits v 0 = [] := rfl

theorem bits_getElem {v w k : Nat} (h : k < (bits v w).length) :
    (bits v w)[k] = v.testBit (w - 1 - k) := by
  simp [bits]

/-- The bits of a joined value: first those of the high part, then the `k` low ones. -/
theorem bits_append {a b w k : Nat} (hb : b < 2 ^ k) :
    bits (a * 2 ^ k + b) (w + k) = bits a w ++ bits b k := by
  apply List.ext_getElem
  · simp
  · intro n h1 h2
    simp only [bits_length] at h1
    rw [bits_getElem, List.getElem_append]
    simp only [bits_length]
    split <;> rw [bits_getElem, mul_comm, Nat.testBit_two_pow_mul_add _ hb]
    · rw [if_neg (by omega)]
      congr 1
      omega
    · rw [if_pos (by omega)]
      congr 1
      omega

theorem bits_succ (v w : Nat) : bits v (w + 1) = bits (v / 2) w ++ [v.testBit 0] := by
  have h := bits_append (a := v / 2) (b := v % 2) (w := w) (k := 1) (by omega)
  rw [show v / 2 * 2 ^ 1 + v % 2 = v by omega] at h
  rw [h]
  congr 1
  simp [bits, Nat.testBit_zero]

theorem val_append_single (s : List Bool) (b : Bool) : val (s ++ [b]) = 2 * val s + b.toNat := by
  simp [val]

/-- "so `val(bits(v, w)) = v`" (R11). -/
theorem val_bits {v w : Nat} (h : v < 2 ^ w) : val (bits v w) = v := by
  induction w generalizing v with
  | zero =>
    have : v = 0 := by omega
    simp [this, val]
  | succ w ih =>
    rw [bits_succ, val_append_single, ih (by rw [Nat.pow_succ] at h; omega), Nat.testBit_zero]
    rcases Nat.mod_two_eq_zero_or_one v with h | h <;> simp [h] <;> omega

theorem bits_ones (k : Nat) : bits (ones k) k = List.replicate k true := by
  apply List.ext_getElem
  · simp
  · intro n h1 h2
    simp only [bits_length] at h1
    rw [bits_getElem]
    simp [ones, Nat.testBit_two_pow_sub_one]
    omega

/-- A slice of a concatenation that starts after its first part. -/
theorem slice_append_right (s t : List Bool) (a b : Nat) :
    slice (s ++ t) (s.length + a) (s.length + b) = slice t a b := by
  simp only [slice]
  rw [List.drop_append, List.drop_eq_nil_of_le (by omega)]
  simp only [List.nil_append, Nat.add_sub_cancel_left]
  congr 1
  omega

theorem slice_append_left (s t : List Bool) : slice (s ++ t) 0 s.length = s := by
  simp [slice]

section chunks
variable {α : Type} (f : α → List Bool) {w : Nat} (hf : ∀ a, (f a).length = w)
include hf

theorem chunks_length (l : List α) : (l.flatMap f).length = w * l.length := by
  induction l with
  | nil => simp
  | cons a l ih =>
    simp only [List.flatMap_cons, List.length_append, hf, ih, List.length_cons]
    ring

/-- The `k`-th slice of width `w` of a stream of chunks is the `k`-th chunk. -/
theorem slice_chunk (l : List α) (rest : List Bool) (k : Nat) (hk : k < l.length) :
    slice (l.flatMap f ++ rest) (w * k) (w * k + w) = f l[k] := by
  induction l generalizing k with
  | nil => simp at hk
  | cons a l ih =>
    cases k with
    | zero => simp [slice, hf]
    | succ k =>
      have h := slice_append_right (f a) (l.flatMap f ++ rest) (w * k) (w * k + w)
      rw [hf] at h
      simp only [List.flatMap_cons, List.getElem_cons_succ, List.append_assoc]
      rw [← ih k (by simpa using hk), ← h]
      congr 1
      · ring
      · ring

theorem slice_after_chunks (l : List α) (rest : List Bool) :
    slice (l.flatMap f ++ rest) (w * l.length) (w * l.length + rest.length) = rest := by
  have h := slice_append_right (l.flatMap f) rest 0 rest.length
  rw [chunks_length f hf] at h
  simpa [slice] using h

/-- Cutting a stream of chunks into slices of the chunks' width gives the chunks back. -/
theorem map_slices_chunks {β : Type} (l : List α) (rest : List Bool) (g : List Bool → β) :
    (List.range l.length).map (fun k => g (slice (l.flatMap f ++ rest) (w * k) (w * k + w))) =
      l.map fun a => g (f a) := by
  apply List.ext_getElem
  · simp
  · intro n h1 h2
    simp only [List.length_map] at h2
    simp only [List.getElem_map, List.getElem_range]
    rw [slice_chunk f hf l rest n h2]

end chunks

end Reference

end Sys2Proof.Machine
end

