-- ==== Sys2Proof/Laws/Encoding.lean ====
section
/-! SUPPORT. The fields of format C: a word is its three fields, and the fields of a word built from three
fields are those. -/

namespace Sys2Proof

@[simp] theorem opField_formatC (op : BitVec 4) (rsv : BitVec 7) (data : BitVec 21) :
    opField (formatC op rsv data) = op := by
  ext i hi
  simp [opField, formatC, BitVec.getElem_extractLsb']
  grind

@[simp] theorem rsvField_formatC (op : BitVec 4) (rsv : BitVec 7) (data : BitVec 21) :
    rsvField (formatC op rsv data) = rsv := by
  ext i hi
  simp [rsvField, formatC, BitVec.getElem_extractLsb']
  grind

@[simp] theorem dataField_formatC (op : BitVec 4) (rsv : BitVec 7) (data : BitVec 21) :
    dataField (formatC op rsv data) = data := by
  ext i hi
  simp [dataField, formatC, BitVec.getElem_extractLsb']
  grind

@[simp] theorem formatC_fields (w : CommandWord) :
    formatC (opField w) (rsvField w) (dataField w) = w := by
  ext i hi
  simp [opField, rsvField, dataField, formatC]
  grind

/-- A word is determined by its three fields. -/
theorem eq_formatC {w : CommandWord} {op : BitVec 4} {rsv : BitVec 7} {data : BitVec 21}
    (ho : opField w = op) (hr : rsvField w = rsv) (hd : dataField w = data) : formatC op rsv data = w := by
  subst ho hr hd
  exact formatC_fields w

/-- The octet operand in DATA, when DATA[20:8] is 0 (R88). -/
theorem setWidth_octet {data : BitVec 21} (h : data.extractLsb' 8 13 = 0#13) :
    (data.extractLsb' 0 8).setWidth 21 = data := by
  ext i hi
  by_cases h8 : i < 8
  · simp [h8, BitVec.getLsbD_eq_getElem hi]
  · have := congrArg (fun v => v.getLsbD (i - 8)) h
    simp only [BitVec.getLsbD_extractLsb', BitVec.getLsbD_zero] at this
    simp [h8]
    have h13 : i - 8 < 13 := by omega
    simpa [h13, show 8 + (i - 8) = i by omega, hi] using this

@[simp] theorem extractLsb'_setWidth_octet (b : Octet) : (b.setWidth 21).extractLsb' 0 8 = b := by
  ext i hi
  simp only [BitVec.getElem_extractLsb', BitVec.getLsbD_setWidth, Nat.zero_add,
    BitVec.getLsbD_eq_getElem hi, show i < 21 by omega, decide_true, Bool.true_and]

@[simp] theorem extractLsb'_setWidth_octet_high (b : Octet) :
    (b.setWidth 21).extractLsb' 8 13 = 0#13 := by
  ext i hi
  simp

end Sys2Proof
end

