-- ==== Sys2Proof/Laws/State.lean ====
section
/-! SUPPORT. One lemma per field per update of the state, so that no proof unfolds a record update. -/

namespace Sys2Proof.Machine

section respond
variable (code : ResponseCode) (out : List OutItem) (stat : Option (BitVec 32)) (s : State)

@[simp] theorem respond_config : (respond code out stat s).config = s.config := rfl
@[simp] theorem respond_enc : (respond code out stat s).enc = s.enc := rfl
@[simp] theorem respond_dec : (respond code out stat s).dec = s.dec := rfl
@[simp] theorem respond_port : (respond code out stat s).port = s.port := rfl
@[simp] theorem respond_responses :
    (respond code out stat s).responses = s.responses ++ [⟨code, out, stat⟩] := rfl
end respond

section raise
variable (e : MessageError) (s : State)

@[simp] theorem raise_config : (raise e s).config = s.config := rfl
@[simp] theorem raise_enc : (raise e s).enc = s.enc := rfl
@[simp] theorem raise_dec : (raise e s).dec = { s.dec with err := some e } := rfl
@[simp] theorem raise_port : (raise e s).port = s.port := rfl
@[simp] theorem raise_responses : (raise e s).responses = s.responses ++ [⟨e.code, [], none⟩] := rfl
end raise

section closeString
variable (s : State)

@[simp] theorem closeString_config : (closeString s).config = s.config := rfl
@[simp] theorem closeString_enc : (closeString s).enc = s.enc := rfl
@[simp] theorem closeString_dec : (closeString s).dec = Decoder.reset := rfl
@[simp] theorem closeString_port : (closeString s).port = s.port := rfl
@[simp] theorem closeString_responses :
    (closeString s).responses = s.responses ++ [⟨closingCode s.config.padCheck s.dec, [], none⟩] := rfl
end closeString

section illegalCommand
variable (s : State)

@[simp] theorem illegalCommand_config : (illegalCommand s).config = s.config := rfl
@[simp] theorem illegalCommand_enc : (illegalCommand s).enc = s.enc := rfl
@[simp] theorem illegalCommand_dec : (illegalCommand s).dec = s.dec := rfl
@[simp] theorem illegalCommand_port : (illegalCommand s).port = s.port := rfl
@[simp] theorem illegalCommand_responses :
    (illegalCommand s).responses = s.responses ++ [⟨.illegalCommand, [], none⟩] := rfl
end illegalCommand

section takeReset
variable (s : State)

@[simp] theorem takeReset_config : (takeReset s).config = s.config := rfl
@[simp] theorem takeReset_enc : (takeReset s).enc = Encoder.reset := rfl
@[simp] theorem takeReset_dec : (takeReset s).dec = Decoder.reset := rfl
@[simp] theorem takeReset_port : (takeReset s).port = s.port := rfl
@[simp] theorem takeReset_responses : (takeReset s).responses = s.responses := rfl
end takeReset

section resetWith
variable (c : Config)

@[simp] theorem resetWith_config : (State.resetWith c).config = c := rfl
@[simp] theorem resetWith_enc : (State.resetWith c).enc = Encoder.reset := rfl
@[simp] theorem resetWith_dec : (State.resetWith c).dec = Decoder.reset := rfl
@[simp] theorem resetWith_port : (State.resetWith c).port = [] := rfl
@[simp] theorem resetWith_responses : (State.resetWith c).responses = [] := rfl
end resetWith

section withFetchWord
variable (s : State) (nbits w : Nat)

@[simp] theorem withFetchWord_config : (s.withFetchWord nbits w).config = s.config := rfl
@[simp] theorem withFetchWord_enc : (s.withFetchWord nbits w).enc = s.enc := rfl
@[simp] theorem withFetchWord_dec : (s.withFetchWord nbits w).dec = s.dec := rfl
@[simp] theorem withFetchWord_port :
    (s.withFetchWord nbits w).port = .command (tableWord nbits w) :: s.port := rfl
@[simp] theorem withFetchWord_responses : (s.withFetchWord nbits w).responses = s.responses := rfl
end withFetchWord

end Sys2Proof.Machine
end

