-- ==== Sys2Proof/Laws/Ops.lean ====
section
/-! SUPPORT. What each shared operation can do, said once: the guard, the next input of the port, DEC_SYM's
cases, the lookups, and the run of one step. -/

namespace Sys2Proof.Machine

/-! ### The guard of a field out of its range -/

@[simp] theorem guarded_eq_next {f : Option Fault} {t t' : State} :
    guarded f t = .next t' ↔ f = none ∧ t = t' := by
  cases f <;> simp [guarded]

@[simp] theorem guarded_eq_fault {f : Option Fault} {t : State} {f' : Fault} :
    guarded f t = .fault f' ↔ f = some f' := by
  cases f <;> simp [guarded]

@[simp] theorem guarded_ne_refused {f : Option Fault} {t : State} {r : Refusal} :
    guarded f t ≠ .refused r := by
  cases f <;> simp [guarded]

theorem encoderFault_eq_none {e : Encoder} : encoderFault e = none ↔ e.Inv := by
  unfold encoderFault Encoder.Inv
  split_ifs <;> simp <;> omega

theorem decoderFault_eq_none {d : Decoder} : decoderFault d = none ↔ d.Inv := by
  unfold decoderFault Decoder.Inv
  split_ifs <;> simp <;> omega

theorem stateFault_eq_none {e : Encoder} {d : Decoder} :
    stateFault e d = none ↔ e.Inv ∧ d.Inv := by
  rw [← encoderFault_eq_none, ← decoderFault_eq_none, stateFault]
  cases encoderFault e <;> simp

/-! ### DEC_SYM -/

/-- The four ways DEC_SYM ends, in the order of its checks (R203). -/
theorem takeSymbol_cases (cp : CodePoint) (s : State) :
    (∃ e, s.dec.err = some e ∧ takeSymbol cp s = respond e.code [] none s) ∨
    (s.dec.err = none ∧ s.dec.tail = true ∧ takeSymbol cp s = raise .malformedInput s) ∨
    (s.dec.err = none ∧ s.dec.tail = false ∧ resolve s.config.rom cp = none ∧
      takeSymbol cp s = raise .invalidCharacter s) ∨
    (∃ g, s.dec.err = none ∧ s.dec.tail = false ∧ resolve s.config.rom cp = some g ∧
      takeSymbol cp s =
        respond .ok (takeGroup s.dec g).2 none { s with dec := (takeGroup s.dec g).1 }) := by
  unfold takeSymbol
  cases herr : s.dec.err with
  | some e => exact .inl ⟨e, rfl, rfl⟩
  | none =>
    cases htail : s.dec.tail with
    | true => exact .inr (.inl ⟨rfl, rfl, by simp⟩)
    | false =>
      cases hres : resolve s.config.rom cp with
      | none => exact .inr (.inr (.inl ⟨rfl, rfl, rfl, by simp⟩))
      | some g => exact .inr (.inr (.inr ⟨g, rfl, rfl, rfl, by simp⟩))

@[simp] theorem takeSymbol_config (cp : CodePoint) (s : State) : (takeSymbol cp s).config = s.config := by
  obtain ⟨e, _, h⟩ | ⟨_, _, h⟩ | ⟨_, _, _, h⟩ | ⟨g, _, _, _, h⟩ := takeSymbol_cases cp s <;> simp [h]

@[simp] theorem takeSymbol_enc (cp : CodePoint) (s : State) : (takeSymbol cp s).enc = s.enc := by
  obtain ⟨e, _, h⟩ | ⟨_, _, h⟩ | ⟨_, _, _, h⟩ | ⟨g, _, _, _, h⟩ := takeSymbol_cases cp s <;> simp [h]

@[simp] theorem takeSymbol_port (cp : CodePoint) (s : State) : (takeSymbol cp s).port = s.port := by
  obtain ⟨e, _, h⟩ | ⟨_, _, h⟩ | ⟨_, _, _, h⟩ | ⟨g, _, _, _, h⟩ := takeSymbol_cases cp s <;> simp [h]

/-! ### The lookups -/

/-- A position found is where the code point stands, counted from `start`. -/
theorem getElem?_of_positionFrom {cp : CodePoint} {start k : Nat} {cs : List CodePoint}
    (h : positionFrom cp start cs = some k) : start ≤ k ∧ cs[k - start]? = some cp := by
  induction cs generalizing start with
  | nil => simp [positionFrom] at h
  | cons c cs ih =>
    simp only [positionFrom] at h
    split at h
    · next hc => obtain rfl := Option.some.inj h; simp [hc]
    · have := ih h
      refine ⟨by omega, ?_⟩
      rw [show k - start = (k - (start + 1)) + 1 by omega]
      simpa using this.2

/-- No position is found exactly when the code point is not in the list. -/
theorem positionFrom_eq_none {cp : CodePoint} {start : Nat} {cs : List CodePoint} :
    positionFrom cp start cs = none ↔ cp ∉ cs := by
  induction cs generalizing start with
  | nil => simp [positionFrom]
  | cons c cs ih =>
    by_cases hc : c = cp
    · simp [positionFrom, hc]
    · simp [positionFrom, hc, ih, Ne.symm hc]

/-! ### The step -/

/-- Everything one step can be: nothing pending, the reset input, a decoded command, or an illegal word. -/
theorem step_cases (s : State) :
    (s.port = [] ∧ step s = .next s) ∨
    (∃ rest, s.port = .reset :: rest ∧ step s = .next (takeReset { s with port := rest })) ∨
    (∃ w rest i, s.port = .command w :: rest ∧ decode w = .ok i ∧
      step s = exec i { s with port := rest }) ∨
    (∃ w rest e, s.port = .command w :: rest ∧ decode w = .error e ∧
      step s = .next (illegalCommand { s with port := rest })) := by
  match h : s.port with
  | [] => exact .inl ⟨rfl, by simp [step, takeInput, h]⟩
  | .reset :: rest => exact .inr (.inl ⟨rest, rfl, by simp [step, takeInput, h]⟩)
  | .command w :: rest =>
    match hw : decode w with
    | .ok i => exact .inr (.inr (.inl ⟨w, rest, i, rfl, hw, by simp [step, takeInput, h, hw]⟩))
    | .error e => exact .inr (.inr (.inr ⟨w, rest, e, rfl, hw, by simp [step, takeInput, h, hw]⟩))

/-! ### Runs -/

theorem runsTo_zero {s t : State} : RunsTo s 0 t ↔ s = t :=
  ⟨fun h => Host.Outcome.next.inj h, fun h => congrArg Host.Outcome.next h⟩

theorem run_succ_of_next (M : Host.Core) {s u : M.State} {k : Nat} (h : M.step s = .next u) :
    M.run (k + 1) s = M.run k u := by
  simp [Host.Core.run, h]

theorem step_of_run_succ (M : Host.Core) {s t : M.State} {k : Nat} (h : M.run (k + 1) s = .next t) :
    ∃ u, M.step s = .next u := by
  rw [Host.Core.run] at h
  split at h
  · exact ⟨_, ‹_›⟩
  · cases h
  · cases h

/-- A run of one step more is a step and then the run. -/
theorem runsTo_succ {s t : State} {k : Nat} :
    RunsTo s (k + 1) t ↔ ∃ u, step s = .next u ∧ RunsTo u k t := by
  constructor
  · intro h
    obtain ⟨u, hu⟩ := step_of_run_succ Sys2Proof.core h
    exact ⟨u, hu, (run_succ_of_next Sys2Proof.core hu).symm.trans h⟩
  · rintro ⟨u, hu, h⟩
    exact (run_succ_of_next Sys2Proof.core hu).trans h

theorem RunsTo.trans {s t u : State} {j k : Nat} (h : RunsTo s j t) (h' : RunsTo t k u) :
    RunsTo s (j + k) u := by
  induction j generalizing s with
  | zero => obtain rfl := runsTo_zero.mp h; simpa using h'
  | succ j ih =>
    obtain ⟨v, hv, hvt⟩ := runsTo_succ.mp h
    rw [show j + 1 + k = (j + k) + 1 by omega]
    exact runsTo_succ.mpr ⟨v, hv, ih hvt⟩

end Sys2Proof.Machine
end

