-- ==== Sys2Proof/Laws/Engines.lean ====
section
/-! SUPPORT. What the two datapaths do to the bits they hold: taking an octet or a group appends its bits to
the pending ones, and what is emitted is the front of them. -/

namespace Sys2Proof.Machine

open Reference

/-- A value of `m + k` bits is its `m` high bits and its `k` low bits. -/
theorem bits_split (t m k : Nat) : bits t (m + k) = bits (t / 2 ^ k) m ++ bits (t % 2 ^ k) k := by
  have h := bits_append (a := t / 2 ^ k) (b := t % 2 ^ k) (w := m) (k := k)
    (Nat.mod_lt _ (Nat.two_pow_pos _))
  rwa [mul_comm, Nat.div_add_mod] at h

theorem div_two_pow_lt {t m k : Nat} (h : t < 2 ^ (m + k)) : t / 2 ^ k < 2 ^ m := by
  rwa [Nat.div_lt_iff_lt_mul (Nat.two_pow_pos _), ← Nat.pow_add]

/-- Taking an octet keeps the encoder invariant (R24). -/
theorem takeOctet_inv {r : Repertoire} {e : Encoder} {b : Octet} (he : e.Inv) :
    (takeOctet r e b).1.Inv := by
  have hb := b.isLt
  obtain ⟨hc, ha⟩ := he
  have hj : joinBits e.acc.toNat 8 b.toNat = e.acc.toNat * 2 ^ 8 + b.toNat := joinBits_eq hb
  unfold Encoder.Inv takeOctet
  simp only [hj]
  split
  all_goals
    simp only [BitVec.toNat_ofNat]
    generalize e.cnt.toNat = c at *
    interval_cases c <;> simp at * <;> omega

/-- Taking a group keeps the decoder invariant (R26). -/
theorem takeGroup_inv {d : Decoder} {g : Group} (hd : d.Inv) : (takeGroup d g).1.Inv := by
  have hc := d.cnt.isLt
  have ha : d.acc.toNat < 2 ^ d.cnt.toNat := hd
  have hv : g.value < 2 ^ g.width := by cases g <;> exact BitVec.isLt _
  unfold Decoder.Inv takeGroup
  rw [joinBits_eq hv]
  cases g <;>
    simp only [Group.width, Group.value, emitOctets] at hv ⊢ <;>
    generalize d.cnt.toNat = c at * <;>
    interval_cases c <;> simp at * <;> omega

/-- ENC_BYTE's datapath on the bits (R25): the pending bits followed by the octet's are the bits of the
emitted groups followed by the bits then pending. -/
theorem takeOctet_bits {r : Repertoire} {e : Encoder} {b : Octet} (he : e.Inv) :
    ∃ ms : List MainIndex,
      (takeOctet r e b).2 = ms.map (fun i => .sym (romMain r i)) ∧
      bits e.acc.toNat e.cnt.toNat ++ bits b.toNat 8 =
        ms.flatMap (fun i => bits i.toNat 11) ++
          bits (takeOctet r e b).1.acc.toNat (takeOctet r e b).1.cnt.toNat := by
  have hb := b.isLt
  obtain ⟨hc, ha⟩ := he
  have hj : joinBits e.acc.toNat 8 b.toNat = e.acc.toNat * 2 ^ 8 + b.toNat := joinBits_eq hb
  have ht : e.acc.toNat * 2 ^ 8 + b.toNat < 2 ^ (e.cnt.toNat + 8) := by
    rw [Nat.pow_add]
    omega
  rw [← bits_append hb]
  unfold takeOctet
  simp only [hj]
  generalize e.acc.toNat * 2 ^ 8 + b.toNat = t at *
  obtain ⟨n, hn⟩ : ∃ n, e.cnt.toNat + 8 = n := ⟨_, rfl⟩
  rw [hn] at ht ⊢
  split
  · obtain ⟨k, rfl⟩ : ∃ k, n = 11 + k := ⟨n - 11, by omega⟩
    have hg := div_two_pow_lt ht
    have hm : t % 2 ^ k < 2 ^ 10 :=
      lt_of_lt_of_le (Nat.mod_lt _ (Nat.two_pow_pos _)) (Nat.pow_le_pow_right (by omega) (by omega))
    refine ⟨[BitVec.ofNat 11 (bitField t (11 + k - 1) (11 + k - 11))], rfl, ?_⟩
    simp only [List.flatMap_cons, List.flatMap_nil, List.append_nil, BitVec.toNat_ofNat, bitField,
      show 11 + k - 11 = k by omega, show 11 + k - 1 - k + 1 = 11 by omega]
    rw [Nat.mod_eq_of_lt hg, Nat.mod_eq_of_lt hg, Nat.mod_eq_of_lt hm,
      Nat.mod_eq_of_lt (show k < 2 ^ 4 by omega)]
    exact bits_split t 11 k
  · have hm : t < 2 ^ 10 := lt_of_lt_of_le ht (Nat.pow_le_pow_right (by omega) (by omega))
    refine ⟨[], rfl, ?_⟩
    simp only [List.flatMap_nil, List.nil_append, BitVec.toNat_ofNat]
    rw [Nat.mod_eq_of_lt hm, Nat.mod_eq_of_lt (show n < 2 ^ 4 by omega)]

/-- The loop of R160 on the bits: those of the octets emitted, followed by fewer than 8. -/
theorem emitOctets_bits {fuel t n : Nat} (hn : n < 8 * (fuel + 1)) (ht : t < 2 ^ n) :
    ∃ os : List Octet,
      (emitOctets fuel t n).1 = os.map .oct ∧
      bits t n = os.flatMap (fun b => bits b.toNat 8) ++
        bits (emitOctets fuel t n).2.1 (emitOctets fuel t n).2.2 ∧
      (emitOctets fuel t n).2.2 < 8 ∧
      (emitOctets fuel t n).2.1 < 2 ^ (emitOctets fuel t n).2.2 := by
  induction fuel generalizing t n with
  | zero => exact ⟨[], rfl, rfl, hn, ht⟩
  | succ fuel ih =>
    simp only [emitOctets]
    split
    · obtain ⟨k, rfl⟩ : ∃ k, n = 8 + k := ⟨n - 8, by omega⟩
      have hg := div_two_pow_lt ht
      simp only [show 8 + k - 8 = k by omega]
      obtain ⟨os, h1, h2, h3, h4⟩ := ih (n := k) (by omega) (Nat.mod_lt t (Nat.two_pow_pos k))
      refine ⟨BitVec.ofNat 8 (bitField t (8 + k - 1) k) :: os, by simp [h1], ?_, h3, h4⟩
      rw [bits_split t 8 k, h2]
      simp only [List.flatMap_cons, BitVec.toNat_ofNat, bitField, List.append_assoc,
        show 8 + k - 1 - k + 1 = 8 by omega]
      rw [Nat.mod_eq_of_lt hg, Nat.mod_eq_of_lt hg]
    · next h => exact ⟨[], rfl, rfl, Nat.lt_of_not_le h, ht⟩

/-- DEC_SYM's datapath on the bits (R27): the pending bits followed by the group's are the bits of the emitted
octets followed by the bits then pending. -/
theorem takeGroup_bits {d : Decoder} {g : Group} (hd : d.Inv) :
    ∃ os : List Octet,
      (takeGroup d g).2 = os.map .oct ∧
      bits d.acc.toNat d.cnt.toNat ++ bits g.value g.width =
        os.flatMap (fun b => bits b.toNat 8) ++
          bits (takeGroup d g).1.acc.toNat (takeGroup d g).1.cnt.toNat := by
  have hc := d.cnt.isLt
  have ha : d.acc.toNat < 2 ^ d.cnt.toNat := hd
  have hv : g.value < 2 ^ g.width := by cases g <;> exact BitVec.isLt _
  have hw : g.width ≤ 11 := by cases g <;> simp [Group.width]
  have ht : d.acc.toNat * 2 ^ g.width + g.value < 2 ^ (d.cnt.toNat + g.width) := by
    rw [Nat.pow_add]
    nlinarith [Nat.two_pow_pos g.width]
  rw [← bits_append hv]
  obtain ⟨os, h1, h2, h3, h4⟩ := emitOctets_bits (fuel := 2) (by omega) ht
  refine ⟨os, by simpa only [takeGroup, joinBits_eq hv] using h1, ?_⟩
  rw [h2]
  simp only [takeGroup, joinBits_eq hv, BitVec.toNat_ofNat]
  rw [Nat.mod_eq_of_lt (show (emitOctets 2 _ _).2.2 < 2 ^ 3 by omega),
    Nat.mod_eq_of_lt (lt_of_lt_of_le h4 (Nat.pow_le_pow_right (by omega) (by omega)))]

end Sys2Proof.Machine
end

