-- ==== Sys2Proof/Laws/PerInstr.lean ====
section
/-! SUPPORT. Facts about every instruction as syntax, one lemma per constructor. -/

namespace Sys2Proof.Laws.EncodedLegality

/-- A well-formed command encodes to a word that R88 calls legal exactly when it is one of the six commands. -/
def Statement (i : Instr) : Prop := i.wf = true → legal (encode i) = !i.isReserved

theorem nop : Statement .nop := fun _ => by decide

theorem encByte (b : Octet) : Statement (.encByte b) := fun _ => by
  simp [encode, legal, Instr.isReserved]

theorem encEnd : Statement .encEnd := fun _ => by decide

theorem decSym (cp : CodePoint) : Statement (.decSym cp) := fun _ => by
  simp [encode, legal, Instr.isReserved]

theorem decEnd : Statement .decEnd := fun _ => by decide

theorem stat : Statement .stat := fun _ => by decide

theorem reservedOp67 (op : BitVec 4) (rsv : BitVec 7) (data : BitVec 21) :
    Statement (.reservedOp67 op rsv data) := fun h => by
  have h : op = 6#4 ∨ op = 7#4 := by simpa [Instr.wf] using h
  rcases h with rfl | rfl <;> simp [encode, legal, Instr.isReserved]

theorem reservedOp8F (op : BitVec 4) (rsv : BitVec 7) (data : BitVec 21) :
    Statement (.reservedOp8F op rsv data) := fun h => by
  have h : 8 ≤ op.toNat := by simpa [Instr.wf] using h
  have hne : ∀ k : BitVec 4, k.toNat < 8 → op ≠ k := fun k hk e => by subst e; omega
  simp [encode, legal, Instr.isReserved, hne]

end Sys2Proof.Laws.EncodedLegality
end

