-- ==== Sys2Proof/Laws/Rom.lean ====
section
/-! SUPPORT. The repertoire: its check said table by table, its entries as lists, and TESTROM's entries. -/

namespace Sys2Proof

/-- The check of R9, table by table. -/
theorem Repertoire.check_iff (r : Repertoire) : r.check = true ↔
    r.main.toList.Nodup ∧ r.tail.toList.Nodup ∧ (∀ c ∈ r.main.toList, c ∉ r.tail.toList) ∧
      ∀ c, c ∈ r.main.toList ∨ c ∈ r.tail.toList → c.toNat ≤ 0x10FFFF := by
  simp only [Repertoire.check, Repertoire.codePoints, List.nodup_append, Bool.and_eq_true,
    decide_eq_true_eq, List.all_eq_true, List.mem_append, and_assoc]
  refine and_congr_right fun _ => and_congr_right fun _ => and_congr_left fun _ => ?_
  exact ⟨fun h a ha hb => h a ha a hb rfl, fun h a ha b hb e => h a ha (e ▸ hb)⟩

theorem codePointsFrom_getElem {start n k : Nat} (h : k < (codePointsFrom start n).length) :
    (codePointsFrom start n)[k] = BitVec.ofNat 21 (start + k) := by
  induction n generalizing start k with
  | zero => simp [codePointsFrom] at h
  | succ n ih =>
    cases k with
    | zero => simp [codePointsFrom]
    | succ k =>
      simp only [codePointsFrom, List.getElem_cons_succ]
      rw [ih]
      congr 1
      omega

end Sys2Proof

namespace Sys2Proof.Machine

theorem mem_main_iff {r : Repertoire} {c : CodePoint} : c ∈ r.main.toList ↔ ∃ i, romMain r i = c := by
  constructor
  · intro h
    obtain ⟨k, hk, rfl⟩ := List.getElem_of_mem h
    have hk' : k < 2048 := by simpa using hk
    exact ⟨BitVec.ofNat 11 k, by simp [romMain, Nat.mod_eq_of_lt hk']⟩
  · rintro ⟨i, rfl⟩
    simp [romMain]

theorem mem_tail_iff {r : Repertoire} {c : CodePoint} : c ∈ r.tail.toList ↔ ∃ j, romTail r j = c := by
  constructor
  · intro h
    obtain ⟨k, hk, rfl⟩ := List.getElem_of_mem h
    have hk' : k < 8 := by simpa using hk
    exact ⟨BitVec.ofNat 3 k, by simp [romTail, Nat.mod_eq_of_lt hk']⟩
  · rintro ⟨j, rfl⟩
    simp [romTail]

/-- In a list without repeats, a code point is found where it stands. -/
theorem positionFrom_getElem {cs : List CodePoint} (hn : cs.Nodup) {k start : Nat} (hk : k < cs.length) :
    positionFrom cs[k] start cs = some (start + k) := by
  cases h : positionFrom cs[k] start cs with
  | none => simp [positionFrom_eq_none] at h
  | some j =>
    obtain ⟨hs, hj⟩ := getElem?_of_positionFrom h
    obtain ⟨_, e⟩ := List.getElem?_eq_some_iff.mp hj
    have := (List.Nodup.getElem_inj_iff hn).mp e
    congr
    omega

/-- TESTROM's main entries (95_test_vectors.md). -/
theorem romMain_test (i : MainIndex) :
    romMain Repertoire.test i = BitVec.ofNat 21 (0x10000 + i.toNat) := by
  simp only [romMain, Repertoire.test, Vector.getElem_mk, List.getElem_toArray]
  exact codePointsFrom_getElem (by rw [codePointsFrom_length]; exact i.isLt)

/-- TESTROM's tail entries (95_test_vectors.md). -/
theorem romTail_test (j : TailIndex) :
    romTail Repertoire.test j = BitVec.ofNat 21 (0xF0 + j.toNat) := by
  simp only [romTail, Repertoire.test, Vector.getElem_mk, List.getElem_toArray]
  exact codePointsFrom_getElem (by rw [codePointsFrom_length]; exact j.isLt)

end Sys2Proof.Machine
end

