-- ==== Sys2Proof/Tests/Slice0.lean ====
section
/-! SUPPORT. Tests. Words, tables and results are those of spec/95_test_vectors.md (cited row by row) and of the
rules named, not the model's own answers. The `witness_` theorems show that the hypotheses of the obligation of
that name can be met, clause by clause. -/

namespace Sys2Proof.Tests

open Sys2Proof Sys2Proof.Machine

-- One theorem after another: many kernel evaluations at once ask for more thread stacks than a limit allows.
set_option Elab.async false

/-- A block under TESTROM with the engines given. -/
def testState (e : Encoder) (d : Decoder) (padCheck : Bool) : State :=
  { State.resetWith (Config.test padCheck) with enc := e, dec := d }

/-- Whether the step of the command word `w` completes with these engines and this one response. -/
def wordGives (w : Nat) (s : State) (e : Encoder) (d : Decoder) (r : Response) : Bool :=
  match step (s.withFetchWord 32 w) with
  | .next t => t.enc == e && t.dec == d && t.responses == [r] && t.port.isEmpty
  | .fault _ => false
  | .refused _ => false

/-- D holding `acc` and `cnt` with no error and no tail. -/
def pending (acc : BitVec 7) (cnt : BitVec 3) : Decoder := ⟨acc, cnt, false, none⟩

/-! ## Well-formedness: what the checks refuse -/

theorem test_wf_refuses_reserved_opcode_5 : (Instr.reservedOp67 5#4 0#7 0#21).wf = false := by decide

theorem test_wf_refuses_reserved_opcode_8_in_row_6_7 : (Instr.reservedOp67 8#4 0#7 0#21).wf = false := by decide

theorem test_wf_refuses_reserved_opcode_7_in_row_8_F : (Instr.reservedOp8F 7#4 0#7 0#21).wf = false := by decide

/-- TESTROM with one main entry changed. -/
def withMain (i : Nat) (h : i < 2048) (cp : CodePoint) : Repertoire :=
  { Repertoire.test with main := Repertoire.test.main.set i cp h }

/-- TESTROM with one tail entry changed. -/
def withTail (j : Nat) (h : j < 8) (cp : CodePoint) : Repertoire :=
  { Repertoire.test with tail := Repertoire.test.tail.set j cp h }

theorem boot_refuses {r : Repertoire} (h : ¬ r.check = true) (p : Bool) :
    boot r p = .refused .illFormedConfiguration := dif_neg h

/-- R9 (1): a main code point twice. -/
theorem test_boot_refuses_main_repeat (p : Bool) :
    boot (withMain 1 (by decide) 0x10000#21) p = .refused .illFormedConfiguration := by
  refine boot_refuses (fun h => ?_) p
  have hn := ((Repertoire.check_iff _).mp h).1
  have := (List.Nodup.getElem_inj_iff hn (i := 0) (j := 1) (hi := by simp) (hj := by simp)).mp
    (by decide +kernel)
  omega

/-- R9 (2): a tail code point twice. -/
theorem test_boot_refuses_tail_repeat (p : Bool) :
    boot (withTail 7 (by decide) 0xF0#21) p = .refused .illFormedConfiguration := by
  refine boot_refuses (fun h => ?_) p
  have hn := ((Repertoire.check_iff _).mp h).2.1
  exact absurd hn (by decide +kernel)

/-- R9 (3): a code point in both tables. -/
theorem test_boot_refuses_shared_code_point (p : Bool) :
    boot (withTail 3 (by decide) 0x107FF#21) p = .refused .illFormedConfiguration := by
  refine boot_refuses (fun h => ?_) p
  have hd := ((Repertoire.check_iff _).mp h).2.2.1
  refine hd (romMain Repertoire.test 2047#11) (mem_main_iff.mpr ⟨2047#11, rfl⟩) ?_
  rw [romMain_test]
  exact mem_tail_iff.mpr ⟨3#3, by decide +kernel⟩

/-- R9 (4): an entry above 0x10FFFF, the lowest such. -/
theorem test_boot_refuses_entry_too_large (p : Bool) :
    boot (withMain 0 (by decide) 0x110000#21) p = .refused .illFormedConfiguration := by
  refine boot_refuses (fun h => ?_) p
  have hb := ((Repertoire.check_iff _).mp h).2.2.2 0x110000#21
    (.inl (mem_main_iff.mpr ⟨0#11, by decide +kernel⟩))
  exact absurd hb (by decide)

/-- "TESTROM meets 00_scope.md rule R9". -/
theorem test_boot_accepts_testrom (p : Bool) :
    boot Repertoire.test p = .next (State.resetWith (Config.test p)) := dif_pos Repertoire.test_check

/-! ## Decoding, bit by bit from the patterns of R85 (field by field, bit 31 first) -/

theorem test_decode_nop : decode (0b0000#4 ++ 0b0000000#7 ++ 0b000000000000000000000#21) = .ok .nop := by
  decide

/-- Octet 0xA5. -/
theorem test_decode_enc_byte :
    decode (0b0001#4 ++ 0b0000000#7 ++ 0b0000000000000#13 ++ 0b10100101#8) = .ok (.encByte 0xA5#8) := by
  decide

theorem test_decode_enc_end : decode (0b0010#4 ++ 0b0000000#7 ++ 0b000000000000000000000#21) = .ok .encEnd := by
  decide

/-- Code point 0x105A5, M(1445): "word 0x300105A5" (section 2.2). -/
theorem test_decode_dec_sym :
    decode (0b0011#4 ++ 0b0000000#7 ++ 0b000010000010110100101#21) = .ok (.decSym 0x105A5#21) := by
  decide

theorem test_decode_dec_end : decode (0b0100#4 ++ 0b0000000#7 ++ 0b000000000000000000000#21) = .ok .decEnd := by
  decide

theorem test_decode_stat : decode (0b0101#4 ++ 0b0000000#7 ++ 0b000000000000000000000#21) = .ok .stat := by
  decide

theorem test_decode_reserved_6_7 :
    decode (0b0111#4 ++ 0b1000000#7 ++ 0b100000000000000000001#21) =
      .ok (.reservedOp67 7#4 0x40#7 0x100001#21) := by
  decide

theorem test_decode_reserved_8_F :
    decode (0b1000#4 ++ 0b0000001#7 ++ 0b000000000000000000010#21) = .ok (.reservedOp8F 8#4 1#7 2#21) := by
  decide

/-- The illegal rows of the legality table of section 2.3, in its order. -/
theorem test_illegal_words :
    [0x00000001#32, 0x10000100#32, 0x10200000#32, 0x20000001#32, 0x30200000#32, 0x50000001#32, 0x60000000#32,
      0xF0000000#32, 0x8FFFFFFF#32].map legal = List.replicate 9 false := by
  decide

/-- The legal rows of that table. -/
theorem test_legal_words :
    [0x00000000#32, 0x100000FF#32, 0x20000000#32, 0x30000000#32, 0x301FFFFF#32, 0x40000000#32,
      0x50000000#32].map legal = List.replicate 7 true := by
  decide

/-- The first table row's word as the host numbers it, and one its decoder rejects. -/
theorem test_decode_table_word :
    decodeTableWord 32 0x100000FF = some (.encByte 0xFF#8) ∧ decodeTableWord 32 0x10000100 = none := by
  decide

/-! ## One step -/

/-- NOP: "In any state, 0x00000000 responds 0, emits nothing and changes nothing". -/
theorem test_nop : wordGives 0x00000000 (testState ⟨0xD#10, 5#4⟩ (pending 1#7 3#3) false)
    ⟨0xD#10, 5#4⟩ (pending 1#7 3#3) ⟨.ok, [], none⟩ = true := by decide +kernel

/-- ENC_BYTE 0xA5 at c = 3, acc = ones(3): M(1957), and E is left empty. -/
theorem test_enc_byte_count_3 : wordGives 0x100000A5 (testState ⟨7#10, 3#4⟩ Decoder.reset false)
    ⟨0#10, 0#4⟩ Decoder.reset ⟨.ok, [.sym 0x107A5#21], none⟩ = true := by decide +kernel

/-- ENC_BYTE 0xA5 at c = 8, acc = ones(8): M(2045), 5 bits left. -/
theorem test_enc_byte_count_8 : wordGives 0x100000A5 (testState ⟨0xFF#10, 8#4⟩ Decoder.reset false)
    ⟨5#10, 5#4⟩ Decoder.reset ⟨.ok, [.sym 0x107FD#21], none⟩ = true := by decide +kernel

/-- ENC_END at c = 1, acc = 0: T(3). -/
theorem test_enc_end_count_1 : wordGives 0x20000000 (testState ⟨0#10, 1#4⟩ Decoder.reset false)
    ⟨0#10, 0#4⟩ Decoder.reset ⟨.ok, [.sym 0xF3#21], none⟩ = true := by decide +kernel

/-- ENC_END at c = 4, acc = 1: M(255). -/
theorem test_enc_end_count_4 : wordGives 0x20000000 (testState ⟨1#10, 4#4⟩ Decoder.reset false)
    ⟨0#10, 0#4⟩ Decoder.reset ⟨.ok, [.sym 0x100FF#21], none⟩ = true := by decide +kernel

/-- DEC_SYM M(1445) at c = 5, acc = ones(5): FD A5, and D is left empty. -/
theorem test_dec_sym_main_count_5 : wordGives 0x300105A5 (testState Encoder.reset (pending 0x1F#7 5#3) false)
    Encoder.reset (pending 0#7 0#3) ⟨.ok, [.oct 0xFD#8, .oct 0xA5#8], none⟩ = true := by decide +kernel

/-- DEC_SYM T(5) at c = 7, acc = ones(7): FF, 2 bits left, D.tail = 1. -/
theorem test_dec_sym_tail_count_7 : wordGives 0x300000F5 (testState Encoder.reset (pending 0x7F#7 7#3) false)
    Encoder.reset ⟨1#7, 2#3, true, none⟩ ⟨.ok, [.oct 0xFF#8], none⟩ = true := by decide +kernel

/-- DEC_END, PAD_CHECK = true, D.acc = ones(3) with bit 0 cleared: response 2, D at zero. -/
theorem test_dec_end_padding : wordGives 0x40000000 (testState Encoder.reset (pending 6#7 3#3) true)
    Encoder.reset Decoder.reset ⟨.malformedInput, [], none⟩ = true := by decide +kernel

/-- DEC_END with INVALID_CHARACTER stored and PAD_CHECK = true: response 1. -/
theorem test_dec_end_stored_error :
    wordGives 0x40000000 (testState Encoder.reset ⟨0#7, 3#3, false, some .invalidCharacter⟩ true)
      Encoder.reset Decoder.reset ⟨.invalidCharacter, [], none⟩ = true := by decide +kernel

/-- STAT, the last row of its table. -/
theorem test_stat_all_fields :
    wordGives 0x50000000 (testState ⟨0x3FF#10, 10#4⟩ ⟨0x7F#7, 7#3, true, some .malformedInput⟩ false)
      ⟨0x3FF#10, 10#4⟩ ⟨0x7F#7, 7#3, true, some .malformedInput⟩ ⟨.ok, [], some 0x07FFFEFA#32⟩ = true := by
  decide +kernel

/-- An illegal word of opcode 6: response 3, nothing changes (P4, #5). -/
theorem test_reserved_6 : wordGives 0x60000000 (testState ⟨0xD#10, 5#4⟩ (pending 1#7 3#3) false)
    ⟨0xD#10, 5#4⟩ (pending 1#7 3#3) ⟨.illegalCommand, [], none⟩ = true := by decide +kernel

/-- An illegal word of opcode 8. -/
theorem test_reserved_8 : wordGives 0x8FFFFFFF (testState ⟨0xD#10, 5#4⟩ (pending 1#7 3#3) false)
    ⟨0xD#10, 5#4⟩ (pending 1#7 3#3) ⟨.illegalCommand, [], none⟩ = true := by decide +kernel

/-- ENC_BYTE with DATA[8] set: response 3, no octet taken (P4, #6). -/
theorem test_illegal_enc_byte : wordGives 0x10000100 (testState ⟨0xD#10, 5#4⟩ (pending 1#7 3#3) false)
    ⟨0xD#10, 5#4⟩ (pending 1#7 3#3) ⟨.illegalCommand, [], none⟩ = true := by decide +kernel

/-- The error rows of DEC_SYM with the lookup in play (section 2.2): an invalid code point, and one after a tail
(X17: MALFORMED_INPUT, "misplaced tail precedes invalid"). -/
theorem test_take_symbol_errors :
    (takeSymbol 0x41#21 (testState Encoder.reset (pending 1#7 3#3) false)).dec =
      ⟨1#7, 3#3, false, some .invalidCharacter⟩ ∧
    (takeSymbol 0x41#21 (testState Encoder.reset ⟨1#7, 3#3, true, none⟩ false)).dec =
      ⟨1#7, 3#3, true, some .malformedInput⟩ := by
  decide +kernel

/-- Reset: "From any state, reset gives STATUS 0x00000000". -/
theorem test_reset_input :
    (match step { testState ⟨0x3FF#10, 10#4⟩ ⟨0x7F#7, 7#3, true, some .malformedInput⟩ true with
        port := [.reset] } with
      | .next t => statusWord t.enc t.dec == 0#32 && t.responses.isEmpty && t.config.padCheck
      | .fault _ => false
      | .refused _ => false) = true := by
  decide +kernel

/-- The stops of 93_implementation_defined.md section 2. -/
theorem test_faults :
    encoderFault ⟨0#10, 11#4⟩ = some .encoderCountOutOfRange ∧
    encoderFault ⟨4#10, 2#4⟩ = some .encoderBitsAboveCount ∧
    decoderFault (pending 1#7 0#3) = some .decoderBitsAboveCount := by
  decide

/-- R86 and R200: the numbers of the response codes; R29: those of D.err. -/
theorem test_code_numbers :
    [ResponseCode.ok, .invalidCharacter, .malformedInput, .illegalCommand].map ResponseCode.bits =
      [0#2, 1#2, 2#2, 3#2] ∧
    [none, some .invalidCharacter, some .malformedInput].map errBits = [0#2, 1#2, 2#2] := by
  decide

/-- R30 by every count. -/
theorem test_padding_by_count :
    (List.range 11).map paddingBits = [0, 2, 1, 0, 7, 6, 5, 4, 3, 2, 1] := by
  decide

/-! ## Whole messages -/

/-- E6: ⟨12 34⟩ is M(145) M(1343). -/
theorem test_encode_E6 : Reference.toGroups [0x12#8, 0x34#8] = [.main 145#11, .main 1343#11] := by
  decide +kernel

/-- E14: seven zero octets are M(0) five times, then T(3); and E1. -/
theorem test_encode_E14_E1 :
    Reference.toGroups (List.replicate 7 0#8) = List.replicate 5 (.main 0#11) ++ [.tail 3#3] ∧
    Reference.toGroups [] = [] := by
  decide +kernel

/-- X5: M(145) M(1343) is ⟨12 34⟩. -/
theorem test_decode_X5 :
    Reference.decodeMessage (Config.test true) [0x10091#21, 0x1053F#21] = .ok [0x12#8, 0x34#8] := by
  decide +kernel

/-- X7, X12 and X19: a lone tail under both values of PAD_CHECK, and a tail that is not last. -/
theorem test_decode_X7_X19 :
    Reference.decodeMessage (Config.test false) [0xF5#21] = .ok [] ∧
    Reference.decodeMessage (Config.test true) [0xF5#21] = .error .malformedInput ∧
    Reference.decodeMessage (Config.test false) [0xF7#21, 0x10000#21] = .error .malformedInput := by
  decide +kernel

/-! ## The assembler (R90, R91, and the listings of section 3) -/

theorem test_asm_comment : readLine "enc.byte 0xFF ; hello".toList = .line (.encByte 0xFF#8) := by decide +kernel

theorem test_asm_symbolic :
    assembleText Repertoire.test "dec.sym M(2047)   ; 0x300107FF".toList = some [0x300107FF#32] ∧
    assembleText Repertoire.test "dec.sym T(7)".toList = some [0x300000F7#32] ∧
    assembleText Repertoire.test "dec.sym 0x41".toList = some [0x30000041#32] := by
  decide +kernel

theorem test_asm_pseudo :
    assembleText Repertoire.test "enc.msg 0xDE, 173".toList =
      some [0x100000DE#32, 0x100000AD#32, 0x20000000#32] ∧
    assembleText Repertoire.test "dec.msg".toList = some [0x40000000#32] ∧
    assembleText Repertoire.test ".word 0x60000000".toList = some [0x60000000#32] := by
  decide +kernel

theorem test_asm_refuses : readLine "enc.byte 256".toList = .notAssembler := by decide +kernel

/-! ## Witnesses of the obligations' hypotheses -/

theorem witness_DecodeOfEncode :
    (Instr.reservedOp67 7#4 0x7F#7 0x1FFFFF#21).wf = true ∧ (Instr.reservedOp8F 8#4 0#7 0#21).wf = true ∧
    (Instr.decSym 0x1FFFFF#21).wf = true := by
  decide

theorem witness_EncodeOfDecode : decode 0x301FFFFF#32 = .ok (.decSym 0x1FFFFF#21) := by decide

theorem witness_LegalWordsAreTheSixCommands :
    decode 0x100000FF#32 = .ok (.encByte 0xFF#8) ∧ decode 0x301FFFFF#32 = .ok (.decSym 0x1FFFFF#21) := by
  decide

theorem witness_StepRunsDecodedCommand :
    { State.reset with port := [.command 0x100000FF#32, .reset] }.port = .command 0x100000FF#32 :: [.reset] ∧
    decode 0x100000FF#32 = .ok (.encByte 0xFF#8) := by
  decide

theorem witness_StepRunsPlacedCommand : (Instr.reservedOp67 6#4 0#7 0#21).wf = true := by decide

theorem witness_IllegalWordIsAnswered :
    { State.reset with port := [.command 0x00000001#32] }.port = .command 0x00000001#32 :: [] ∧
    legal 0x00000001#32 = false := by
  decide

theorem witness_ResetInputClearsBothEngines :
    { State.reset with port := [.reset, .command 0#32] }.port = .reset :: [.command 0#32] := by
  decide

theorem witness_IdleStepHoldsState : State.reset.port = [] := rfl

/-- The first clause: TESTROM meets the four conditions of R9. -/
theorem witness_BootAcceptsExactlyWellFormedTables :
    (∀ i j : MainIndex, romMain Repertoire.test i = romMain Repertoire.test j → i = j) ∧
    (∀ i j : TailIndex, romTail Repertoire.test i = romTail Repertoire.test j → i = j) ∧
    (∀ (i : MainIndex) (j : TailIndex), romMain Repertoire.test i ≠ romTail Repertoire.test j) ∧
    (∀ i : MainIndex, (romMain Repertoire.test i).toNat ≤ 0x10FFFF) ∧
    (∀ j : TailIndex, (romTail Repertoire.test j).toNat ≤ 0x10FFFF) := by
  simp only [romMain_test, romTail_test]
  refine ⟨fun i j h => ?_, fun i j h => ?_, fun i j h => ?_, fun i => ?_, fun j => ?_⟩
  · have := congrArg BitVec.toNat h
    simp only [BitVec.toNat_ofNat] at this
    apply BitVec.eq_of_toNat_eq
    omega
  · have := congrArg BitVec.toNat h
    simp only [BitVec.toNat_ofNat] at this
    apply BitVec.eq_of_toNat_eq
    omega
  · have := congrArg BitVec.toNat h
    simp only [BitVec.toNat_ofNat] at this
    omega
  · simp only [BitVec.toNat_ofNat]
    omega
  · simp only [BitVec.toNat_ofNat]
    omega

/-- The second clause: a table that breaks condition (1), and one that breaks (4) by one. -/
theorem witness_BootAcceptsExactlyWellFormedTables_refused :
    romMain (withMain 1 (by decide) 0x10000#21) 0#11 = romMain (withMain 1 (by decide) 0x10000#21) 1#11 ∧
    ¬ (romMain (withMain 0 (by decide) 0x110000#21) 0#11).toNat ≤ 0x10FFFF := by
  decide +kernel

theorem witness_TablesAreDisjointAndInvertible : 0x10FFFF < (0x110000#21).toNat := by decide

/-- Full counts and empty ones. -/
theorem witness_StatReturnsStatus :
    Encoder.Inv ⟨0x3FF#10, 10#4⟩ ∧ Decoder.Inv ⟨0x7F#7, 7#3, true, some .malformedInput⟩ ∧
    Encoder.Inv Encoder.reset ∧ Decoder.Inv Decoder.reset :=
  ⟨⟨by decide, by decide⟩, by unfold Decoder.Inv; decide, ⟨by decide, by decide⟩, by unfold Decoder.Inv; decide⟩

/-- The counts 0, 2 and 3, 10, where the clauses begin and end. -/
theorem witness_EncByteByCount :
    (Encoder.Inv ⟨0#10, 0#4⟩ ∧ (0#4).toNat ≤ 2) ∧ (Encoder.Inv ⟨3#10, 2#4⟩ ∧ (2#4).toNat ≤ 2) ∧
    (Encoder.Inv ⟨7#10, 3#4⟩ ∧ 3 ≤ (3#4).toNat) ∧ (Encoder.Inv ⟨0x3FF#10, 10#4⟩ ∧ 3 ≤ (10#4).toNat) := by
  unfold Encoder.Inv
  decide

/-- The counts 0, 1, 3 and 4, 10. -/
theorem witness_EncEndByCount :
    (Encoder.Inv ⟨0#10, 0#4⟩ ∧ (0#4).toNat = 0) ∧
    (Encoder.Inv ⟨1#10, 1#4⟩ ∧ 1 ≤ (1#4).toNat ∧ (1#4).toNat ≤ 3) ∧
    (Encoder.Inv ⟨7#10, 3#4⟩ ∧ 1 ≤ (3#4).toNat ∧ (3#4).toNat ≤ 3) ∧
    (Encoder.Inv ⟨15#10, 4#4⟩ ∧ 4 ≤ (4#4).toNat) ∧ (Encoder.Inv ⟨0x3FF#10, 10#4⟩ ∧ 4 ≤ (10#4).toNat) := by
  unfold Encoder.Inv
  decide

/-- Both stored errors. -/
theorem witness_DecSymRepeatsStoredError :
    Decoder.Inv ⟨7#7, 3#3, false, some .invalidCharacter⟩ ∧
    Decoder.Inv ⟨7#7, 3#3, true, some .malformedInput⟩ := by
  unfold Decoder.Inv
  decide

theorem witness_DecSymAfterTailIsMalformed : Decoder.Inv ⟨1#7, 1#3, true, none⟩ := by
  unfold Decoder.Inv
  decide

/-- Both ways to be outside the tables: 0x41 of TESTROM, and 0x1FFFFF of any. -/
theorem witness_DecSymOutsideTablesIsInvalid :
    Decoder.Inv (pending 7#7 3#3) ∧
    ((∀ i, romMain Repertoire.test i ≠ 0x41#21) ∧ ∀ j, romTail Repertoire.test j ≠ 0x41#21) ∧
    0x10FFFF < (0x1FFFFF#21).toNat := by
  refine ⟨by unfold Decoder.Inv; decide, ⟨fun i h => ?_, fun j h => ?_⟩, by decide⟩
  · have := congrArg BitVec.toNat h
    simp only [romMain_test, BitVec.toNat_ofNat] at this
    omega
  · have := congrArg BitVec.toNat h
    simp only [romTail_test, BitVec.toNat_ofNat] at this
    omega

/-- The counts 0, 4 and 5, 7, for main and tail code points alike. -/
theorem witness_DecSymTakesGroupByCount :
    (Decoder.Inv (pending 0#7 0#3) ∧ (0#3).toNat ≤ 4) ∧ (Decoder.Inv (pending 0xF#7 4#3) ∧ (4#3).toNat ≤ 4) ∧
    (Decoder.Inv (pending 0x1F#7 5#3) ∧ 5 ≤ (5#3).toNat) ∧
    (Decoder.Inv (pending 0x7F#7 7#3) ∧ 5 ≤ (7#3).toNat) := by
  unfold Decoder.Inv
  decide

/-- Each clause: both errors, PAD_CHECK off, and on with padding that is all 1 and that is not. -/
theorem witness_DecEndReportsAndClears :
    Decoder.Inv ⟨0#7, 1#3, false, some .invalidCharacter⟩ ∧
    Decoder.Inv ⟨0#7, 1#3, true, some .malformedInput⟩ ∧
    (Decoder.Inv (pending 6#7 3#3) ∧ (Config.test false).padCheck = false) ∧
    (Decoder.Inv (pending 0#7 0#3) ∧ (Config.test true).padCheck = true ∧ (0#7).toNat = 2 ^ (0#3).toNat - 1) ∧
    (Decoder.Inv (pending 0x7F#7 7#3) ∧ (0x7F#7).toNat = 2 ^ (7#3).toNat - 1) ∧
    (Decoder.Inv (pending 6#7 3#3) ∧ (6#7).toNat ≠ 2 ^ (3#3).toNat - 1) := by
  unfold Decoder.Inv Config.test
  decide

/-- A state in each of the four phases, and a code point of each kind under TESTROM. -/
theorem witness_DecoderStateMachine :
    (Decoder.Inv (pending 7#7 3#3) ∧ (pending 7#7 3#3).phase = some .accept) ∧
    (Decoder.Inv ⟨7#7, 3#3, true, none⟩ ∧ Decoder.phase ⟨7#7, 3#3, true, none⟩ = some .afterTail) ∧
    (Decoder.Inv ⟨7#7, 3#3, false, some .invalidCharacter⟩ ∧
      Decoder.phase ⟨7#7, 3#3, false, some .invalidCharacter⟩ = some .errIC) ∧
    (Decoder.Inv ⟨7#7, 3#3, true, some .malformedInput⟩ ∧
      Decoder.phase ⟨7#7, 3#3, true, some .malformedInput⟩ = some .errMI) ∧
    (∃ i, romMain Repertoire.test i = 0x107FF#21) ∧ (∃ j, romTail Repertoire.test j = 0xF7#21) := by
  refine ⟨?_, ?_, ?_, ?_, ⟨2047#11, by rw [romMain_test]; decide⟩, ⟨7#3, by rw [romTail_test]; decide⟩⟩ <;>
    (unfold Decoder.Inv; decide)

theorem witness_FirstErrorIsKept :
    Decoder.Inv ⟨1#7, 3#3, false, some .invalidCharacter⟩ ∧
    { testState Encoder.reset ⟨1#7, 3#3, false, some .invalidCharacter⟩ true with
      port := commands (decMsg [0x10001#21, 0xF0#21]) ++ [HostEvent.reset] }.port =
      commands (decMsg [0x10001#21, 0xF0#21]) ++ [HostEvent.reset] :=
  ⟨by unfold Decoder.Inv; decide, rfl⟩

/-- From an empty and a full E. -/
theorem witness_EncoderCommandsFrame :
    (∃ t, exec (.encByte 0xA5#8) (testState ⟨0x3FF#10, 10#4⟩ Decoder.reset false) = .next t) ∧
    ∃ t, exec .encEnd (testState ⟨0#10, 0#4⟩ Decoder.reset false) = .next t :=
  ⟨⟨_, rfl⟩, ⟨_, rfl⟩⟩

theorem witness_DecoderCommandsFrame :
    (∃ t, exec (.decSym 0x41#21) (testState Encoder.reset (pending 0x7F#7 7#3) false) = .next t) ∧
    ∃ t, exec .decEnd (testState Encoder.reset (pending 0x7F#7 7#3) false) = .next t :=
  ⟨⟨_, rfl⟩, ⟨_, rfl⟩⟩

theorem witness_ControlCommandsFrame :
    (∃ t, exec .nop State.reset = .next t) ∧ (∃ t, exec .stat State.reset = .next t) ∧
    (∃ t, exec (.reservedOp67 6#4 0#7 0#21) State.reset = .next t) ∧
    ∃ t, exec (.reservedOp8F 15#4 0#7 0#21) State.reset = .next t :=
  ⟨⟨_, rfl⟩, ⟨_, rfl⟩, ⟨_, rfl⟩, ⟨_, rfl⟩⟩

/-- The hypotheses of its four clauses. -/
theorem witness_EnginesDoNotReadEachOther :
    (∃ t, exec (.encByte 0xA5#8) State.reset = .next t) ∧ (∃ t, exec .encEnd State.reset = .next t) ∧
    (∃ t, exec (.decSym 0xF0#21) State.reset = .next t) ∧ ∃ t, exec .decEnd State.reset = .next t :=
  ⟨⟨_, rfl⟩, ⟨_, rfl⟩, ⟨_, rfl⟩, ⟨_, rfl⟩⟩

/-- A legal word and an illegal one. -/
theorem witness_OneBoundedResponsePerCommand :
    (∃ t, step { State.reset with port := [.command 0x100000A5#32] } = .next t) ∧
    ∃ t, step { State.reset with port := [.command 0x10000100#32] } = .next t :=
  ⟨⟨_, rfl⟩, ⟨_, rfl⟩⟩

theorem witness_ConfigurationIsNeverWritten : RunsTo State.reset 3 State.reset := rfl

theorem witness_StepKeepsInvariant :
    { State.reset with port := [.command 0x100000A5#32] }.Inv ∧
    ∃ t, step { State.reset with port := [.command 0x100000A5#32] } = .next t :=
  ⟨⟨⟨by decide, by decide⟩, by unfold Decoder.Inv; decide, by decide⟩, ⟨_, rfl⟩⟩

/-- A state in the middle of both engines' messages. -/
theorem witness_EveryRunIsSafe :
    (testState ⟨0x3FF#10, 10#4⟩ ⟨0x7F#7, 7#3, true, some .malformedInput⟩ true).Inv :=
  ⟨⟨by decide, by decide⟩, by unfold Decoder.Inv; decide, by decide⟩

/-- The states that break an invariant: a count of 11, a bit at the count. -/
theorem witness_StopsExactlyOutsideInvariants :
    ¬ Encoder.Inv ⟨0#10, 11#4⟩ ∧ ¬ Encoder.Inv ⟨4#10, 2#4⟩ ∧ ¬ Decoder.Inv (pending 8#7 3#3) := by
  unfold Encoder.Inv Decoder.Inv
  decide

theorem witness_EncoderHoldsThePendingBits :
    Encoder.Inv ⟨0#10, 0#4⟩ ∧
    { State.reset with port := commands ([0xDE#8, 0xAD#8].map .encByte) ++ [HostEvent.reset] }.port =
      commands ([0xDE#8, 0xAD#8].map .encByte) ++ [HostEvent.reset] :=
  ⟨⟨by decide, by decide⟩, rfl⟩

/-- A string that the scan takes, ending in a tail code point. -/
theorem witness_DecoderHoldsThePendingBits :
    State.reset.dec = ⟨0#7, 0#3, false, none⟩ ∧
    Reference.scan State.reset.config.rom false 0 [0x10091#21, 0xF7#21] = .ok [.main 145#11, .tail 7#3] := by
  decide +kernel

theorem witness_EncoderMessageComputesEncode :
    Encoder.Inv ⟨0#10, 0#4⟩ ∧
    { State.reset with port := commands (encMsg [0x12#8, 0x34#8]) ++ [] }.port =
      commands (encMsg [0x12#8, 0x34#8]) ++ [] :=
  ⟨⟨by decide, by decide⟩, rfl⟩

/-- A string that decodes (the last clause's hypothesis); X19 above is one that does not. -/
theorem witness_DecoderMessageComputesDecode :
    State.reset.dec = ⟨0#7, 0#3, false, none⟩ ∧
    { State.reset with port := commands (decMsg [0x10007#21]) ++ [] }.port =
      commands (decMsg [0x10007#21]) ++ [] ∧
    Reference.decodeMessage State.reset.config [0x10007#21] = .ok [0x00#8] := by
  decide +kernel

/-- 0, 1, 3, 6 and 7 octets leave 0, 8, 2, 4 and 1 bits over: each clause, and the extremes. -/
theorem witness_PaddingIsAtMostSeven : [0, 1, 3, 6, 7].map (8 * · % 11) = [0, 8, 2, 4, 1] := by decide

/-- Lengths 7, 3 and 10 leave 1, 2 and 3 bits over, and length 1 does not. -/
theorem witness_TailOnlyLast : [7, 3, 10, 1].map (8 * · % 11) = [1, 2, 3, 8] := by decide

theorem witness_AcceptedStrings : (Config.test false).padCheck = false := rfl

/-- The last clause's hypothesis: one main code point before the tail, 14 mod 8 = 6. -/
theorem witness_DecodeIsNotInjective :
    (Config.test false).padCheck = false ∧ (11 * [romMain Repertoire.test 0#11].length + 3) % 8 ≥ 3 :=
  ⟨rfl, by decide⟩

/-- Commands of both engines, NOP, STAT and a reserved word, interleaved. -/
def interleaved : List Instr :=
  [.encByte 0xDE#8, .decSym 0x10091#21, .nop, .stat, .reservedOp67 6#4 0#7 0#21, .encEnd, .decEnd]

theorem witness_InterleavingChangesNothing :
    { State.reset with port := commands interleaved }.Inv ∧ (∀ i ∈ interleaved, i.wf = true) ∧
    { State.reset with port := commands interleaved }.port = commands interleaved :=
  ⟨⟨⟨by decide, by decide⟩, by unfold Decoder.Inv; decide, by decide⟩, by decide, rfl⟩

end Sys2Proof.Tests
end

section
/-! PROOFS. The family of spec/00_scope.md: which configurations boot (R9, R235), and which command a step
runs (R8). -/

namespace Sys2Proof

/-! ### The check of R9, entry by entry -/

/-- A table that `k`-bit indices address repeats nothing exactly when no two indices hold the same entry. -/
theorem toList_nodup_iff_index_injective {α : Type} {n k : Nat} (v : Vector α n) (hn : n = 2 ^ k) :
    v.toList.Nodup ↔
      ∀ i j : BitVec k, v[i.toNat]'(hn ▸ i.isLt) = v[j.toNat]'(hn ▸ j.isLt) → i = j := by
  have hlen : v.toList.length = n := Vector.length_toList
  constructor
  · intro hnodup i j hij
    exact BitVec.eq_of_toNat_eq ((hnodup.getElem_inj_iff (hi := by omega) (hj := by omega)).mp
      (by simpa using hij))
  · intro hinj
    refine List.nodup_iff_injective_get.mpr fun ⟨a, ha⟩ ⟨b, hb⟩ hab => Fin.ext ?_
    have ha' : a % 2 ^ k = a := Nat.mod_eq_of_lt (by omega)
    have hb' : b % 2 ^ k = b := Nat.mod_eq_of_lt (by omega)
    have := hinj (BitVec.ofNat k a) (BitVec.ofNat k b) (by simpa [ha', hb'] using hab)
    simpa [ha', hb'] using congrArg BitVec.toNat this

end Sys2Proof

namespace Sys2Proof.Machine

/-- `Repertoire.check` is the four conditions of R9, said of `RomMain` and `RomTail`. -/
theorem check_iff_entries (r : Repertoire) : r.check = true ↔
    (∀ i j : MainIndex, romMain r i = romMain r j → i = j) ∧
    (∀ i j : TailIndex, romTail r i = romTail r j → i = j) ∧
    (∀ (i : MainIndex) (j : TailIndex), romMain r i ≠ romTail r j) ∧
    (∀ i : MainIndex, (romMain r i).toNat ≤ 0x10FFFF) ∧
    (∀ j : TailIndex, (romTail r j).toNat ≤ 0x10FFFF) := by
  have hmain : r.main.toList.Nodup ↔ ∀ i j : MainIndex, romMain r i = romMain r j → i = j :=
    toList_nodup_iff_index_injective r.main rfl
  have htail : r.tail.toList.Nodup ↔ ∀ i j : TailIndex, romTail r i = romTail r j → i = j :=
    toList_nodup_iff_index_injective r.tail rfl
  have hdisjoint : (∀ c ∈ r.main.toList, c ∉ r.tail.toList) ↔
      ∀ (i : MainIndex) (j : TailIndex), romMain r i ≠ romTail r j := by
    simp only [mem_main_iff, mem_tail_iff, forall_exists_index, forall_apply_eq_imp_iff, not_exists]
    exact forall₂_congr fun _ _ => not_congr eq_comm
  have hbound : (∀ c, c ∈ r.main.toList ∨ c ∈ r.tail.toList → c.toNat ≤ 0x10FFFF) ↔
      (∀ i : MainIndex, (romMain r i).toNat ≤ 0x10FFFF) ∧
        ∀ j : TailIndex, (romTail r j).toNat ≤ 0x10FFFF := by
    simp only [or_imp, forall_and, mem_main_iff, mem_tail_iff, forall_exists_index, forall_apply_eq_imp_iff]
  rw [Repertoire.check_iff, hmain, htail, hdisjoint, hbound]

/-! ### Boot -/

theorem boot_of_check {r : Repertoire} (p : Bool) (h : r.check = true) :
    boot r p = .next (State.resetWith ⟨r, p, h⟩) := dif_pos h

theorem boot_of_not_check {r : Repertoire} (p : Bool) (h : ¬ r.check = true) :
    boot r p = .refused .illFormedConfiguration := dif_neg h

end Sys2Proof.Machine

namespace Sys2Proof

/-! ### The decoder on encoded commands -/

/-- An opcode below 6 with RSV 0 reaches the rows of the six commands. -/
theorem decode_formatC_operation {op : BitVec 4} (data : BitVec 21) (hop : op.toNat < 6) :
    decode (formatC op 0#7 data) = decodeOperation op data := by
  have h6 : op ≠ 6#4 := by rintro rfl; simp at hop
  have h7 : op ≠ 7#4 := by rintro rfl; simp at hop
  have h8 : ¬ 8 ≤ op.toNat := by omega
  simp [decode, h6, h7, h8]

theorem decode_formatC_op67 {op : BitVec 4} (rsv : BitVec 7) (data : BitVec 21)
    (hop : op = 6#4 ∨ op = 7#4) :
    decode (formatC op rsv data) = .ok (.reservedOp67 op rsv data) := by
  simp [decode, hop]

theorem decode_formatC_op8F {op : BitVec 4} (rsv : BitVec 7) (data : BitVec 21) (hop : 8 ≤ op.toNat) :
    decode (formatC op rsv data) = .ok (.reservedOp8F op rsv data) := by
  have h6 : op ≠ 6#4 := by rintro rfl; simp at hop
  have h7 : op ≠ 7#4 := by rintro rfl; simp at hop
  simp [decode, h6, h7, hop]

/-- The decoder inverts the encoder on well-formed commands, row by row (R85). -/
theorem decode_encode {i : Instr} (hwf : i.wf = true) : decode (encode i) = .ok i := by
  cases i with
  | nop => exact decode_formatC_operation 0#21 (by decide)
  | encByte b =>
    rw [encode, decode_formatC_operation _ (by decide)]
    simp [decodeOperation]
  | encEnd => exact decode_formatC_operation 0#21 (by decide)
  | decSym cp => exact decode_formatC_operation cp (by decide)
  | decEnd => exact decode_formatC_operation 0#21 (by decide)
  | stat => exact decode_formatC_operation 0#21 (by decide)
  | reservedOp67 op rsv data => exact decode_formatC_op67 rsv data (by simpa [Instr.wf] using hwf)
  | reservedOp8F op rsv data => exact decode_formatC_op8F rsv data (by simpa [Instr.wf] using hwf)

/-- A word placed whole is that word. -/
@[simp] theorem tableWord_toNat (w : CommandWord) : tableWord 32 w.toNat = w := by
  rw [tableWord, Nat.mod_eq_of_lt w.isLt, BitVec.ofNat_toNat, BitVec.setWidth_eq]

end Sys2Proof

namespace Sys2Proof.Machine

/-! ### The step of a command word -/

theorem step_command {s : State} {w : CommandWord} {rest : List HostEvent} {i : Instr}
    (hport : s.port = .command w :: rest) (hdec : decode w = .ok i) :
    step s = exec i { s with port := rest } := by
  obtain ⟨hp, -⟩ | ⟨_, hp, -⟩ | ⟨_, _, _, hp, hd, hstep⟩ | ⟨_, _, _, hp, hd, -⟩ := step_cases s
  · cases hport.symm.trans hp
  · cases hport.symm.trans hp
  · cases hport.symm.trans hp
    cases hdec.symm.trans hd
    exact hstep
  · cases hport.symm.trans hp
    cases hdec.symm.trans hd

/-- Taking the placed word off the port again gives the state it was placed in. -/
theorem withFetchWord_port_restored (s : State) (nbits w : Nat) :
    { s.withFetchWord nbits w with port := s.port } = s := rfl

end Sys2Proof.Machine

namespace Sys2Proof.Proofs

open Sys2Proof.Machine

/-- Settles O12: both directions are the check of R9, entry by entry. -/
theorem bootAcceptsExactlyWellFormedTables : Obligations.BootAcceptsExactlyWellFormedTables := by
  intro r p
  rw [← check_iff_entries]
  exact ⟨fun h => ⟨⟨r, p, h⟩, rfl, rfl, boot_of_check p h⟩, boot_of_not_check p⟩

/-- Settles O6, from the inversion of the step. -/
theorem stepRunsDecodedCommand : Obligations.StepRunsDecodedCommand :=
  fun _ _ _ _ hport hdec => step_command hport hdec

/-- Settles O7: the placed word is the next input, and it decodes to the command it encodes. -/
theorem stepRunsPlacedCommand : Obligations.StepRunsPlacedCommand := by
  intro s i hwf
  have hport : (s.withFetchWord 32 (encode i).toNat).port = .command (encode i) :: s.port := by simp
  rw [step_command hport (decode_encode hwf), withFetchWord_port_restored]

end Sys2Proof.Proofs
end

section
/-! PROOFS. The family of spec/10_state.md: what E and D hold (R24 to R27), the decoder's message state machine
(R32), the reset values (R38), and what each command reads and writes (R39). -/

namespace Sys2Proof.Machine

open Reference

/-! ### What each command does where it completes -/

theorem exec_encByte_eq_next {s t : State} {b : Octet} :
    exec (.encByte b) s = .next t ↔
      s.enc.Inv ∧ respond .ok (takeOctet s.config.rom s.enc b).2 none
        { s with enc := (takeOctet s.config.rom s.enc b).1 } = t := by
  rw [← encoderFault_eq_none]
  exact guarded_eq_next

theorem exec_encEnd_eq_next {s t : State} :
    exec .encEnd s = .next t ↔
      s.enc.Inv ∧ respond .ok (closingSymbols s.config.rom s.enc) none { s with enc := Encoder.reset } = t := by
  rw [← encoderFault_eq_none]
  exact guarded_eq_next

theorem exec_decSym_eq_next {s t : State} {cp : CodePoint} :
    exec (.decSym cp) s = .next t ↔ s.dec.Inv ∧ takeSymbol cp s = t := by
  rw [← decoderFault_eq_none]
  exact guarded_eq_next

theorem exec_decEnd_eq_next {s t : State} :
    exec .decEnd s = .next t ↔ s.dec.Inv ∧ closeString s = t := by
  rw [← decoderFault_eq_none]
  exact guarded_eq_next

theorem exec_stat_eq_next {s t : State} :
    exec .stat s = .next t ↔
      (s.enc.Inv ∧ s.dec.Inv) ∧ respond .ok [] (some (statusWord s.enc s.dec)) s = t := by
  rw [← stateFault_eq_none]
  exact guarded_eq_next

/-- R39: NOP, STAT and the reserved commands "write nothing": they only add a response. -/
theorem eq_respond_of_exec_control {s t : State} {i : Instr} (he : i.ofEncoder = false) (hd : i.ofDecoder = false)
    (h : exec i s = .next t) : ∃ code stat, t = respond code [] stat s := by
  cases i with
  | nop => exact ⟨_, _, (Host.Outcome.next.inj h).symm⟩
  | stat =>
    obtain ⟨-, rfl⟩ := exec_stat_eq_next.mp h
    exact ⟨_, _, rfl⟩
  | reservedOp67 op rsv data => exact ⟨_, _, (Host.Outcome.next.inj h).symm⟩
  | reservedOp8F op rsv data => exact ⟨_, _, (Host.Outcome.next.inj h).symm⟩
  | encByte b => cases he
  | encEnd => cases he
  | decSym cp => cases hd
  | decEnd => cases hd

/-! ### DEC_SYM, an equation per way it ends -/

section takeSymbol
variable {cp : CodePoint} {s : State}

theorem takeSymbol_of_err {e : MessageError} (he : s.dec.err = some e) :
    takeSymbol cp s = respond e.code [] none s := by
  simp [takeSymbol, he]

theorem takeSymbol_of_tail (he : s.dec.err = none) (ht : s.dec.tail = true) :
    takeSymbol cp s = raise .malformedInput s := by
  simp [takeSymbol, he, ht]

theorem takeSymbol_of_unresolved (he : s.dec.err = none) (ht : s.dec.tail = false)
    (hr : resolve s.config.rom cp = none) : takeSymbol cp s = raise .invalidCharacter s := by
  simp [takeSymbol, he, ht, hr]

theorem takeSymbol_of_resolved {g : Group} (he : s.dec.err = none) (ht : s.dec.tail = false)
    (hr : resolve s.config.rom cp = some g) :
    takeSymbol cp s =
      respond .ok (takeGroup s.dec g).2 none { s with dec := (takeGroup s.dec g).1 } := by
  simp [takeSymbol, he, ht, hr]

theorem takeSymbol_responses (cp : CodePoint) (s : State) :
    ∃ r, (takeSymbol cp s).responses = s.responses ++ [r] := by
  obtain ⟨e, -, h⟩ | ⟨-, -, h⟩ | ⟨-, -, -, h⟩ | ⟨g, -, -, -, h⟩ := takeSymbol_cases cp s <;>
    exact ⟨_, by rw [h]; rfl⟩

/-- R166: DEC_SYM does not read E. -/
theorem takeSymbol_with_enc (cp : CodePoint) (s : State) (e : Encoder) :
    takeSymbol cp { s with enc := e } = { takeSymbol cp s with enc := e } := by
  obtain ⟨_, he, h⟩ | ⟨he, ht, h⟩ | ⟨he, ht, hr, h⟩ | ⟨_, he, ht, hr, h⟩ := takeSymbol_cases cp s
  · exact h ▸ takeSymbol_of_err he
  · exact h ▸ takeSymbol_of_tail he ht
  · exact h ▸ takeSymbol_of_unresolved he ht hr
  · exact h ▸ takeSymbol_of_resolved he ht hr

end takeSymbol

section takeGroup
variable (d : Decoder) (g : Group)

@[simp] theorem takeGroup_tail : (takeGroup d g).1.tail = (d.tail || g.isTail) := rfl
@[simp] theorem takeGroup_err : (takeGroup d g).1.err = d.err := rfl
end takeGroup

/-! ### The lookup of a code point of the tables -/

theorem idxMain_eq_none {r : Repertoire} {cp : CodePoint} :
    idxMain r cp = none ↔ ∀ i, romMain r i ≠ cp := by
  rw [idxMain, Option.map_eq_none_iff, positionFrom_eq_none, mem_main_iff, not_exists]

theorem idxTail_eq_none {r : Repertoire} {cp : CodePoint} :
    idxTail r cp = none ↔ ∀ j, romTail r j ≠ cp := by
  rw [idxTail, Option.map_eq_none_iff, positionFrom_eq_none, mem_tail_iff, not_exists]

/-- In a table without repeats, an entry is found at its index. -/
theorem positionFrom_entry {n k : Nat} {table : Vector CodePoint n} (hnodup : table.toList.Nodup)
    (i : BitVec k) (hi : i.toNat < n) :
    (positionFrom table[i.toNat] 0 table.toList).map (BitVec.ofNat k) = some i := by
  have h := positionFrom_getElem hnodup (start := 0) (k := i.toNat) (by simpa using hi)
  rw [Vector.getElem_toList] at h
  simp [h]

theorem idxMain_romMain (c : Config) (i : MainIndex) : idxMain c.rom (romMain c.rom i) = some i := by
  obtain ⟨hnodup, -⟩ := c.rom.check_iff.mp c.wellFormed
  exact positionFrom_entry hnodup i i.isLt

theorem idxTail_romTail (c : Config) (j : TailIndex) : idxTail c.rom (romTail c.rom j) = some j := by
  obtain ⟨-, hnodup, -⟩ := c.rom.check_iff.mp c.wellFormed
  exact positionFrom_entry hnodup j j.isLt

theorem resolve_romMain (c : Config) (i : MainIndex) :
    resolve c.rom (romMain c.rom i) = some (.main i) := by
  rw [resolve, idxMain_romMain]

/-- No main entry is a tail entry (R9), so the main table does not answer for a tail code point. -/
theorem resolve_romTail (c : Config) (j : TailIndex) :
    resolve c.rom (romTail c.rom j) = some (.tail j) := by
  obtain ⟨-, -, hdisjoint, -⟩ := (check_iff_entries c.rom).mp c.wellFormed
  rw [resolve, idxMain_eq_none.mpr fun i => hdisjoint i j, idxTail_romTail]

theorem resolve_eq_none {r : Repertoire} {cp : CodePoint} (hmain : ∀ i, romMain r i ≠ cp)
    (htail : ∀ j, romTail r j ≠ cp) : resolve r cp = none := by
  rw [resolve, idxMain_eq_none.mpr hmain, idxTail_eq_none.mpr htail]

/-! ### The decoder's message state machine (R32) -/

/-- `D.tail` in a state of R32. -/
def Phase.tail : Phase → Bool
  | .accept => false
  | .afterTail => true
  | .errIC => false
  | .errMI => true

/-- `D.err` in a state of R32. -/
def Phase.err : Phase → Option MessageError
  | .accept => none
  | .afterTail => none
  | .errIC => some .invalidCharacter
  | .errMI => some .malformedInput

theorem phase_eq_some {d : Decoder} {p : Phase} :
    d.phase = some p ↔ d.tail = p.tail ∧ d.err = p.err := by
  obtain ⟨acc, cnt, tail, err⟩ := d
  rcases tail with _ | _ <;> rcases err with _ | _ | _ <;> cases p <;>
    simp [Decoder.phase, Phase.tail, Phase.err]

/-- R32's transition on a DEC_SYM whose code point resolves to `g?`. -/
def Phase.afterSymbol : Phase → (g? : Option Group) → Phase
  | .accept, some (.main _) => .accept
  | .accept, some (.tail _) => .afterTail
  | .accept, none => .errIC
  | .afterTail, _ => .errMI
  | .errIC, _ => .errIC
  | .errMI, _ => .errMI

theorem takeSymbol_phase {s : State} {p : Phase} (cp : CodePoint) (hp : s.dec.phase = some p) :
    (takeSymbol cp s).dec.phase = some (p.afterSymbol (resolve s.config.rom cp)) := by
  obtain ⟨ht, he⟩ := phase_eq_some.mp hp
  cases p with
  | accept =>
    match hr : resolve s.config.rom cp with
    | some g =>
      rw [takeSymbol_of_resolved he ht hr]
      have htail : (takeGroup s.dec g).1.tail = g.isTail := by rw [takeGroup_tail, ht]; rfl
      cases g <;> exact phase_eq_some.mpr ⟨htail, he⟩
    | none =>
      rw [takeSymbol_of_unresolved he ht hr]
      exact phase_eq_some.mpr ⟨ht, rfl⟩
  | afterTail =>
    rw [takeSymbol_of_tail he ht]
    exact phase_eq_some.mpr ⟨ht, rfl⟩
  | errIC =>
    rw [takeSymbol_of_err he]
    exact hp
  | errMI =>
    rw [takeSymbol_of_err he]
    exact hp

/-! ### The invariants -/

theorem Encoder.reset_inv : Encoder.reset.Inv := by
  unfold Encoder.Inv
  decide

theorem Decoder.reset_inv : Decoder.reset.Inv := by
  unfold Decoder.Inv
  decide

theorem Decoder.reset_phase : Decoder.reset.phase = some .accept := rfl

/-- DEC_SYM changes at most the flags of D, or takes a group. -/
theorem takeSymbol_dec_inv {s : State} (cp : CodePoint) (hd : s.dec.Inv) : (takeSymbol cp s).dec.Inv := by
  obtain ⟨e, -, h⟩ | ⟨-, -, h⟩ | ⟨-, -, -, h⟩ | ⟨g, -, -, -, h⟩ := takeSymbol_cases cp s <;> rw [h]
  · exact hd
  · exact hd
  · exact hd
  · exact takeGroup_inv hd

theorem exec_keeps_inv {s t : State} {i : Instr} (hs : s.Inv) (h : exec i s = .next t) : t.Inv := by
  obtain ⟨henc, hdec, hphase⟩ := hs
  have hcontrol (he : i.ofEncoder = false) (hd : i.ofDecoder = false) : t.Inv := by
    obtain ⟨code, stat, rfl⟩ := eq_respond_of_exec_control he hd h
    exact ⟨henc, hdec, hphase⟩
  cases i with
  | encByte b =>
    obtain ⟨-, rfl⟩ := exec_encByte_eq_next.mp h
    exact ⟨takeOctet_inv henc, hdec, hphase⟩
  | encEnd =>
    obtain ⟨-, rfl⟩ := exec_encEnd_eq_next.mp h
    exact ⟨Encoder.reset_inv, hdec, hphase⟩
  | decSym cp =>
    obtain ⟨-, rfl⟩ := exec_decSym_eq_next.mp h
    obtain ⟨p, hp⟩ := Option.ne_none_iff_exists'.mp hphase
    exact ⟨by simpa using henc, takeSymbol_dec_inv cp hdec, by simp [takeSymbol_phase cp hp]⟩
  | decEnd =>
    obtain ⟨-, rfl⟩ := exec_decEnd_eq_next.mp h
    exact ⟨henc, Decoder.reset_inv, by simp [Decoder.reset_phase]⟩
  | nop => exact hcontrol rfl rfl
  | stat => exact hcontrol rfl rfl
  | reservedOp67 op rsv data => exact hcontrol rfl rfl
  | reservedOp8F op rsv data => exact hcontrol rfl rfl

theorem step_keeps_inv {s t : State} (hs : s.Inv) (h : step s = .next t) : t.Inv := by
  have hport (rest : List HostEvent) : State.Inv { s with port := rest } := ⟨hs.enc, hs.dec, hs.phase⟩
  obtain ⟨-, hstep⟩ | ⟨_, -, hstep⟩ | ⟨_, _, _, -, -, hstep⟩ | ⟨_, _, _, -, -, hstep⟩ :=
    step_cases s <;> rw [hstep] at h
  · cases h
    exact hs
  · cases h
    exact ⟨Encoder.reset_inv, Decoder.reset_inv, by simp [Decoder.reset_phase]⟩
  · exact exec_keeps_inv (hport _) h
  · cases h
    exact ⟨hs.enc, hs.dec, hs.phase⟩

/-! ### The bits left over from a stream of chunks -/

/-- Fewer than `w` bits after chunks of width `w` are the last `L mod w` bits of the whole stream. -/
theorem eq_slice_of_chunks {α : Type} (f : α → List Bool) {w : Nat} (hf : ∀ a, (f a).length = w)
    {l : List α} {s rest : List Bool} (hs : s = l.flatMap f ++ rest) (hrest : rest.length < w) :
    rest.length = s.length % w ∧ rest = slice s (w * (s.length / w)) s.length := by
  have hlen : s.length = w * l.length + rest.length := by
    rw [hs, List.length_append, chunks_length f hf]
  have hmod : s.length % w = rest.length := by
    rw [hlen, Nat.mul_add_mod, Nat.mod_eq_of_lt hrest]
  have hdiv : w * (s.length / w) = w * l.length := by
    have := Nat.div_add_mod s.length w
    omega
  refine ⟨hmod.symm, ?_⟩
  rw [hdiv, hlen, hs]
  exact (slice_after_chunks f hf l rest).symm

theorem stream_length (bs : List Octet) : (stream bs).length = 8 * bs.length :=
  chunks_length (fun b : Octet => bits b.toNat 8) (fun b => bits_length b.toNat 8) bs

/-! ### Runs of commands -/

/-- `n` steps from `s` to `t` that deliver `n` responses, all of them OK, with the output items `out`. -/
def RunsOk (s : State) (n : Nat) (t : State) (out : List OutItem) : Prop :=
  RunsTo s n t ∧ ∃ rs, t.responses = s.responses ++ rs ∧ rs.length = n ∧ (∀ r ∈ rs, r.code = .ok) ∧
    outItems rs = out

theorem RunsOk.zero (s : State) : RunsOk s 0 s [] :=
  ⟨runsTo_zero.mpr rfl, [], by simp, rfl, by simp, rfl⟩

/-- A command that responds OK, before a run of OK responses. -/
theorem RunsOk.cons {s u t : State} {i : Instr} {is : List Instr} {rest : List HostEvent} {n : Nat}
    {o out : List OutItem} {stat : Option (BitVec 32)} (hwf : i.wf = true)
    (hport : s.port = commands (i :: is) ++ rest)
    (hexec : exec i { s with port := commands is ++ rest } = .next u)
    (hu : u.responses = s.responses ++ [⟨.ok, o, stat⟩]) (hrun : RunsOk u n t out) :
    RunsOk s (n + 1) t (o ++ out) := by
  obtain ⟨hrun, rs, hrs, hlen, hok, rfl⟩ := hrun
  have hstep : step s = .next u := (step_command hport (decode_encode hwf)).trans hexec
  refine ⟨runsTo_succ.mpr ⟨u, hstep, hrun⟩, ⟨.ok, o, stat⟩ :: rs, ?_, ?_, ?_, rfl⟩
  · rw [hrs, hu, List.append_assoc, List.singleton_append]
  · rw [List.length_cons, hlen]
  · exact List.forall_mem_cons.mpr ⟨rfl, hok⟩

/-- ENC_BYTEs split the pending bits and the octets' stream into the groups emitted and the bits then pending. -/
theorem runsOk_encBytes {s : State} {bs : List Octet} {rest : List HostEvent} (hs : s.enc.Inv)
    (hport : s.port = commands (bs.map .encByte) ++ rest) :
    ∃ (e : Encoder) (ms : List MainIndex) (rs : List Response),
      RunsOk s bs.length { s with port := rest, enc := e, responses := rs }
        (ms.map fun i => .sym (romMain s.config.rom i)) ∧
      e.Inv ∧
      bits s.enc.acc.toNat s.enc.cnt.toNat ++ stream bs =
        ms.flatMap (fun i => bits i.toNat 11) ++ bits e.acc.toNat e.cnt.toNat := by
  induction bs generalizing s with
  | nil =>
    obtain rfl : s.port = rest := hport
    exact ⟨s.enc, [], s.responses, RunsOk.zero s, hs, by simp [stream]⟩
  | cons b bs ih =>
    obtain ⟨ms₁, hout, hbits₁⟩ := takeOctet_bits (r := s.config.rom) (b := b) hs
    obtain ⟨e, ms₂, rs, hrun, he, hbits₂⟩ := ih
      (s := respond .ok (takeOctet s.config.rom s.enc b).2 none
        { s with
          port := commands (bs.map .encByte) ++ rest
          enc := (takeOctet s.config.rom s.enc b).1 })
      (takeOctet_inv hs) rfl
    simp only [respond_enc] at hbits₂
    refine ⟨e, ms₁ ++ ms₂, rs, ?_, he, ?_⟩
    · rw [List.map_append, ← hout]
      exact RunsOk.cons rfl hport (exec_encByte_eq_next.mpr ⟨hs, rfl⟩) rfl hrun
    · calc bits s.enc.acc.toNat s.enc.cnt.toNat ++ stream (b :: bs)
        _ = (bits s.enc.acc.toNat s.enc.cnt.toNat ++ bits b.toNat 8) ++ stream bs := by simp [stream]
        _ = (ms₁ ++ ms₂).flatMap (fun i => bits i.toNat 11) ++ bits e.acc.toNat e.cnt.toNat := by
          rw [hbits₁, List.append_assoc, hbits₂]; simp

/-- The scan of R123 passes a code point only where no tail came before and the tables hold it. -/
theorem of_scan_cons_eq_ok {r : Repertoire} {afterTail : Bool} {k : Nat} {c : CodePoint} {cs : List CodePoint}
    {gs : List Group} (h : scan r afterTail k (c :: cs) = .ok gs) :
    afterTail = false ∧
      ∃ g gs', resolve r c = some g ∧ scan r g.isTail (k + 1) cs = .ok gs' ∧ gs = g :: gs' := by
  rw [scan] at h
  split at h
  · cases h
  · next htail =>
    split at h
    · cases h
    · next g hg =>
      split at h
      · next gs' hgs =>
        cases h
        exact ⟨by simpa using htail, g, gs', hg, hgs, rfl⟩
      · cases h

/-- DEC_SYMs of code points that the scan accepts split the pending bits and the groups' stream into the octets
emitted and the bits then pending. -/
theorem runsOk_decSyms {s : State} {cs : List CodePoint} {gs : List Group} {k : Nat} {rest : List HostEvent}
    (hs : s.dec.Inv) (herr : s.dec.err = none) (hport : s.port = commands (cs.map .decSym) ++ rest)
    (hscan : scan s.config.rom s.dec.tail k cs = .ok gs) :
    ∃ (d : Decoder) (os : List Octet) (rs : List Response),
      RunsOk s cs.length { s with port := rest, dec := d, responses := rs } (os.map .oct) ∧
      d.Inv ∧ d.err = none ∧
      bits s.dec.acc.toNat s.dec.cnt.toNat ++ groupStream gs =
        os.flatMap (fun b => bits b.toNat 8) ++ bits d.acc.toNat d.cnt.toNat := by
  induction cs generalizing s gs k with
  | nil =>
    obtain rfl : s.port = rest := hport
    cases hscan
    exact ⟨s.dec, [], s.responses, RunsOk.zero s, hs, herr, by simp [groupStream]⟩
  | cons c cs ih =>
    obtain ⟨htail, g, gs, hresolve, hscan', rfl⟩ := of_scan_cons_eq_ok hscan
    obtain ⟨os₁, hout, hbits₁⟩ := takeGroup_bits (g := g) hs
    obtain ⟨d, os₂, rs, hrun, hd, hderr, hbits₂⟩ := ih
      (s := respond .ok (takeGroup s.dec g).2 none
        { s with port := commands (cs.map .decSym) ++ rest, dec := (takeGroup s.dec g).1 })
      (takeGroup_inv hs) herr rfl (by simpa [htail] using hscan')
    simp only [respond_dec] at hbits₂
    refine ⟨d, os₁ ++ os₂, rs, ?_, hd, hderr, ?_⟩
    · rw [List.map_append, ← hout]
      exact RunsOk.cons rfl hport
        (exec_decSym_eq_next.mpr ⟨hs, takeSymbol_of_resolved herr htail hresolve⟩) rfl hrun
    · calc bits s.dec.acc.toNat s.dec.cnt.toNat ++ groupStream (g :: gs)
        _ = (bits s.dec.acc.toNat s.dec.cnt.toNat ++ bits g.value g.width) ++ groupStream gs := by
          simp [groupStream]
        _ = (os₁ ++ os₂).flatMap (fun b => bits b.toNat 8) ++ bits d.acc.toNat d.cnt.toNat := by
          rw [hbits₁, List.append_assoc, hbits₂]; simp

end Sys2Proof.Machine

namespace Sys2Proof.Proofs

open Sys2Proof.Machine Sys2Proof.Machine.Reference

/-- Settles O34, by the cases of a step and of the command it runs. -/
theorem stepKeepsInvariant : Obligations.StepKeepsInvariant :=
  fun _ _ hs h => step_keeps_inv hs h

/-- Settles O37: the pending bits are what the groups of 11 bits leave of the stream. -/
theorem encoderHoldsThePendingBits : Obligations.EncoderHoldsThePendingBits := by
  intro s bs rest hs hcnt hport
  obtain ⟨e, ms, rs, ⟨hrun, -⟩, ⟨he, -⟩, hbits⟩ := runsOk_encBytes hs hport
  have hstream : stream bs = ms.flatMap (fun i => bits i.toNat 11) ++ bits e.acc.toNat e.cnt.toNat := by
    simpa [hcnt] using hbits
  obtain ⟨hlen, hslice⟩ := eq_slice_of_chunks _ (fun i : MainIndex => bits_length i.toNat 11) hstream
    (by rw [bits_length]; omega)
  rw [bits_length, stream_length] at hlen
  rw [stream_length] at hslice
  exact ⟨_, hrun, rfl, hlen, hslice⟩

/-- Settles O38: the pending bits are what the octets leave of the reconstructed stream. -/
theorem decoderHoldsThePendingBits : Obligations.DecoderHoldsThePendingBits := by
  intro s cs gs rest hstart hport hscan
  have hinv : s.dec.Inv := hstart ▸ Decoder.reset_inv
  have herr : s.dec.err = none := by rw [hstart]
  obtain ⟨d, os, rs, ⟨hrun, -⟩, -, hderr, hbits⟩ :=
    runsOk_decSyms hinv herr hport (k := 0) (gs := gs) (by rwa [hstart])
  have hstream : groupStream gs = os.flatMap (fun b => bits b.toNat 8) ++ bits d.acc.toNat d.cnt.toNat := by
    simpa [hstart] using hbits
  obtain ⟨hlen, hslice⟩ := eq_slice_of_chunks _ (fun b : Octet => bits_length b.toNat 8) hstream
    (by rw [bits_length]; exact d.cnt.isLt)
  rw [bits_length] at hlen
  have hfirst : (groupStream gs).length - (groupStream gs).length % 8 = 8 * ((groupStream gs).length / 8) := by
    omega
  exact ⟨_, hrun, rfl, hderr, hlen, hfirst ▸ hslice⟩

/-- Settles O25: R32's table is `Phase.afterSymbol`, read at each kind of code point. -/
theorem decoderStateMachine : Obligations.DecoderStateMachine := by
  intro s cp p hinv hp
  refine ⟨⟨_, exec_decEnd_eq_next.mpr ⟨hinv, rfl⟩, Decoder.reset_phase⟩,
    _, exec_decSym_eq_next.mpr ⟨hinv, rfl⟩, ?_⟩
  rw [takeSymbol_phase cp hp]
  refine ⟨?_, ?_, ?_, by rintro rfl; rfl, by rintro rfl; rfl, by rintro rfl; rfl⟩
  · rintro rfl ⟨i, rfl⟩
    rw [resolve_romMain]
    rfl
  · rintro rfl ⟨j, rfl⟩
    rw [resolve_romTail]
    rfl
  · rintro rfl hmain htail
    rw [resolve_eq_none hmain htail]
    rfl

/-- Settles O11: each value of R38, and STATUS computed from them. -/
theorem resetValues : Obligations.ResetValues := by
  intro c
  have hstatus : statusWord Encoder.reset Decoder.reset = 0x00000000#32 := by decide
  exact ⟨rfl, rfl, rfl, rfl, rfl, rfl, hstatus, resetWith_config c, Config.test false, rfl⟩

/-- Settles O27, from what the two encoder commands do. -/
theorem encoderCommandsFrame : Obligations.EncoderCommandsFrame := by
  rintro s t b (h | h)
  · obtain ⟨-, rfl⟩ := exec_encByte_eq_next.mp h
    exact ⟨rfl, rfl, rfl, _, respond_responses ..⟩
  · obtain ⟨-, rfl⟩ := exec_encEnd_eq_next.mp h
    exact ⟨rfl, rfl, rfl, _, respond_responses ..⟩

/-- Settles O28, from what the two decoder commands do. -/
theorem decoderCommandsFrame : Obligations.DecoderCommandsFrame := by
  rintro s t cp (h | h)
  · obtain ⟨-, rfl⟩ := exec_decSym_eq_next.mp h
    exact ⟨takeSymbol_enc cp s, takeSymbol_config cp s, takeSymbol_port cp s, takeSymbol_responses cp s⟩
  · obtain ⟨-, rfl⟩ := exec_decEnd_eq_next.mp h
    exact ⟨rfl, rfl, rfl, _, closeString_responses s⟩

/-- Settles O29: what a control command leaves is a response added. -/
theorem controlCommandsFrame : Obligations.ControlCommandsFrame := by
  intro s t op rsv data h
  obtain ⟨code, stat, rfl⟩ : ∃ code stat, t = respond code [] stat s := by
    obtain h | h | h | h := h <;> exact eq_respond_of_exec_control rfl rfl h
  exact ⟨_, rfl⟩

/-- Settles O30: an encoder command's guard and effect name E alone, a decoder command's D alone. -/
theorem enginesDoNotReadEachOther : Obligations.EnginesDoNotReadEachOther := by
  refine fun s t b cp e d => ⟨fun h => ?_, fun h => ?_, fun h => ?_, fun h => ?_⟩
  · obtain ⟨hinv, rfl⟩ := exec_encByte_eq_next.mp h
    exact exec_encByte_eq_next.mpr ⟨hinv, rfl⟩
  · obtain ⟨hinv, rfl⟩ := exec_encEnd_eq_next.mp h
    exact exec_encEnd_eq_next.mpr ⟨hinv, rfl⟩
  · obtain ⟨hinv, rfl⟩ := exec_decSym_eq_next.mp h
    exact exec_decSym_eq_next.mpr ⟨hinv, takeSymbol_with_enc cp s e⟩
  · obtain ⟨hinv, rfl⟩ := exec_decEnd_eq_next.mp h
    exact exec_decEnd_eq_next.mpr ⟨hinv, rfl⟩

end Sys2Proof.Proofs
end

section
/-! PROOFS. The family of spec/20_memory.md: the reverse lookups of the ROM (R53 to R55), which nothing writes
(R56), and what interleaving the two engines' commands changes (R68). -/

namespace Sys2Proof.Machine

/-! ### The reverse lookups -/

/-- A lookup that finds every entry of a table at its index, and misses only what is no entry, is the inverse of
the table. -/
theorem lookup_eq_some_iff {ι : Type} {entry : ι → CodePoint} {lookup : CodePoint → Option ι}
    (hentry : ∀ i, lookup (entry i) = some i) (hmiss : ∀ cp, (∀ i, entry i ≠ cp) → lookup cp = none)
    {cp : CodePoint} {i : ι} : lookup cp = some i ↔ entry i = cp := by
  refine ⟨fun h => ?_, fun h => h ▸ hentry i⟩
  have hhit : ∃ j, entry j = cp := by
    by_contra hno
    rw [hmiss cp (not_exists.mp hno)] at h
    cases h
  obtain ⟨j, rfl⟩ := hhit
  rw [hentry j] at h
  rw [Option.some.inj h]

theorem idxMain_eq_some (c : Config) {cp : CodePoint} {i : MainIndex} :
    idxMain c.rom cp = some i ↔ romMain c.rom i = cp :=
  lookup_eq_some_iff (idxMain_romMain c) fun _ => idxMain_eq_none.mpr

theorem idxTail_eq_some (c : Config) {cp : CodePoint} {j : TailIndex} :
    idxTail c.rom cp = some j ↔ romTail c.rom j = cp :=
  lookup_eq_some_iff (idxTail_romTail c) fun _ => idxTail_eq_none.mpr

theorem idxMain_eq_none_or_idxTail_eq_none (c : Config) (cp : CodePoint) :
    idxMain c.rom cp = none ∨ idxTail c.rom cp = none := by
  obtain ⟨-, -, hdisjoint, -⟩ := (check_iff_entries c.rom).mp c.wellFormed
  cases hmain : idxMain c.rom cp with
  | none => exact .inl rfl
  | some i =>
    obtain rfl := (idxMain_eq_some c).mp hmain
    exact .inr (idxTail_eq_none.mpr fun j => (hdisjoint i j).symm)

/-! ### What every command leaves alone -/

/-- Whatever the command, the ROM, PAD_CHECK and the inputs still pending stay, and one response is added. -/
theorem exec_frame {i : Instr} {s t : State} (h : exec i s = .next t) :
    t.config = s.config ∧ t.port = s.port ∧ ∃ r, t.responses = s.responses ++ [r] := by
  have hcontrol (he : i.ofEncoder = false) (hd : i.ofDecoder = false) :
      t.config = s.config ∧ t.port = s.port ∧ ∃ r, t.responses = s.responses ++ [r] := by
    obtain ⟨code, stat, rfl⟩ := eq_respond_of_exec_control he hd h
    exact ⟨rfl, rfl, _, rfl⟩
  cases i with
  | encByte b => exact (Proofs.encoderCommandsFrame s t b (.inl h)).2
  | encEnd => exact (Proofs.encoderCommandsFrame s t 0#8 (.inr h)).2
  | decSym cp => exact (Proofs.decoderCommandsFrame s t cp (.inl h)).2
  | decEnd => exact (Proofs.decoderCommandsFrame s t 0#21 (.inr h)).2
  | nop => exact hcontrol rfl rfl
  | stat => exact hcontrol rfl rfl
  | reservedOp67 op rsv data => exact hcontrol rfl rfl
  | reservedOp8F op rsv data => exact hcontrol rfl rfl

theorem step_config {s t : State} (h : step s = .next t) : t.config = s.config := by
  obtain ⟨-, hstep⟩ | ⟨_, -, hstep⟩ | ⟨_, _, _, -, -, hstep⟩ | ⟨_, _, _, -, -, hstep⟩ :=
    step_cases s <;> rw [hstep] at h
  · cases h
    rfl
  · cases h
    rfl
  · exact (exec_frame h).1
  · cases h
    rfl

theorem RunsTo.config {k : Nat} {s t : State} (h : RunsTo s k t) : t.config = s.config := by
  induction k generalizing s with
  | zero => rw [runsTo_zero.mp h]
  | succ k ih =>
    obtain ⟨u, hstep, hrun⟩ := runsTo_succ.mp h
    rw [ih hrun, step_config hstep]

/-- Within the invariants no command stops the block (R195). -/
theorem exec_completes {s : State} (hs : s.Inv) (i : Instr) : ∃ t, exec i s = .next t := by
  cases i with
  | nop => exact ⟨_, rfl⟩
  | encByte b => exact ⟨_, exec_encByte_eq_next.mpr ⟨hs.enc, rfl⟩⟩
  | encEnd => exact ⟨_, exec_encEnd_eq_next.mpr ⟨hs.enc, rfl⟩⟩
  | decSym cp => exact ⟨_, exec_decSym_eq_next.mpr ⟨hs.dec, rfl⟩⟩
  | decEnd => exact ⟨_, exec_decEnd_eq_next.mpr ⟨hs.dec, rfl⟩⟩
  | stat => exact ⟨_, exec_stat_eq_next.mpr ⟨⟨hs.enc, hs.dec⟩, rfl⟩⟩
  | reservedOp67 op rsv data => exact ⟨_, rfl⟩
  | reservedOp8F op rsv data => exact ⟨_, rfl⟩

/-! ### Runs of commands with their responses -/

/-- The commands `is`, all that the port holds, run from `s` to `t` and are answered by `rs`, one each. -/
inductive Answers : State → List Instr → List Response → State → Prop where
  | nil (s : State) : Answers s [] [] s
  | cons {s u t : State} {i : Instr} {is : List Instr} {r : Response} {rs : List Response}
      (hexec : exec i { s with port := commands is } = .next u) (hresp : u.responses = s.responses ++ [r])
      (hrest : Answers u is rs t) : Answers s (i :: is) (r :: rs) t

namespace Answers
variable {s t : State} {is : List Instr} {rs : List Response}

theorem responses (h : Answers s is rs t) : t.responses = s.responses ++ rs := by
  induction h with
  | nil s => simp
  | cons _ hresp _ ih => rw [ih, hresp, List.append_assoc, List.singleton_append]

theorem length (h : Answers s is rs t) : rs.length = is.length := by
  induction h with
  | nil s => rfl
  | cons _ _ _ ih => rw [List.length_cons, List.length_cons, ih]

/-- With the words of the commands on the port, the block takes one step for each. -/
theorem runsTo (h : Answers s is rs t) (hwf : ∀ i ∈ is, i.wf = true) (hport : s.port = commands is) :
    RunsTo s is.length t := by
  induction h with
  | nil s => exact runsTo_zero.mpr rfl
  | cons hexec _ _ ih =>
    obtain ⟨hi, his⟩ := List.forall_mem_cons.mp hwf
    obtain ⟨-, hport', -⟩ := exec_frame hexec
    exact runsTo_succ.mpr ⟨_, (step_command hport (decode_encode hi)).trans hexec, ih his hport'⟩

/-- Within the invariants every list of commands is answered. -/
theorem exists_of_inv (is : List Instr) {s : State} (hs : s.Inv) : ∃ rs t, Answers s is rs t := by
  induction is generalizing s with
  | nil => exact ⟨[], s, .nil s⟩
  | cons i is ih =>
    have hs' : State.Inv { s with port := commands is } := ⟨hs.enc, hs.dec, hs.phase⟩
    obtain ⟨u, hexec⟩ := exec_completes hs' i
    obtain ⟨-, -, r, hresp⟩ := exec_frame hexec
    obtain ⟨rs, t, hrest⟩ := ih (exec_keeps_inv hs' hexec)
    exact ⟨r :: rs, t, .cons hexec hresp hrest⟩

end Answers

/-! ### One engine's commands within a mixed run -/

/-- `view` is all that the commands of `own` read, and no other command writes it (R39). -/
structure Isolated {α : Type} (own : Instr → Bool) (view : State → α) : Prop where
  view_port (s : State) (p : List HostEvent) : view { s with port := p } = view s
  exec_own {i : Instr} {s s' t : State} (hi : own i = true) (hview : view s' = view s) (h : exec i s = .next t) :
    ∃ t' r, exec i s' = .next t' ∧ view t' = view t ∧
      t.responses = s.responses ++ [r] ∧ t'.responses = s'.responses ++ [r]
  view_other {i : Instr} {s t : State} (hi : own i = false) (h : exec i s = .next t) : view t = view s

/-- The responses in `rs` to those commands of `is` that are in `own`. -/
def responsesTo (own : Instr → Bool) (is : List Instr) (rs : List Response) : List Response :=
  ((is.zip rs).filter fun p => own p.1).map (·.2)

section responsesTo
variable {own : Instr → Bool} {i : Instr} (is : List Instr) (r : Response) (rs : List Response)

theorem responsesTo_cons_of_own (hi : own i = true) :
    responsesTo own (i :: is) (r :: rs) = r :: responsesTo own is rs := by
  simp [responsesTo, hi]

theorem responsesTo_cons_of_other (hi : own i = false) :
    responsesTo own (i :: is) (r :: rs) = responsesTo own is rs := by
  simp [responsesTo, hi]
end responsesTo

/-- R68 for one engine: its commands alone, from any state it cannot tell from `s`, are answered as in the mixed
run, and end where the engine cannot tell the difference. -/
theorem Answers.alone {α : Type} {own : Instr → Bool} {view : State → α} (hiso : Isolated own view)
    {s s' t : State} {is : List Instr} {rs : List Response} (h : Answers s is rs t) (hview : view s' = view s) :
    ∃ t', Answers s' (is.filter own) (responsesTo own is rs) t' ∧ view t' = view t := by
  induction h generalizing s' with
  | nil s => exact ⟨s', .nil s', hview⟩
  | @cons s u t i is r rs hexec hresp hrest ih =>
    have hsame : view s' = view { s with port := commands is } := hview.trans (hiso.view_port s _).symm
    cases hi : own i with
    | true =>
      obtain ⟨u', r', hexec', hview', hr, hr'⟩ :=
        hiso.exec_own (s' := { s' with port := commands (is.filter own) }) hi ((hiso.view_port s' _).trans hsame) hexec
      obtain rfl : r = r' := by simpa [hresp] using hr
      obtain ⟨t', hrest', ht'⟩ := ih hview'
      rw [List.filter_cons_of_pos hi, responsesTo_cons_of_own is r rs hi]
      exact ⟨t', .cons hexec' hr' hrest', ht'⟩
    | false =>
      rw [List.filter_cons_of_neg (by simp [hi]), responsesTo_cons_of_other is r rs hi]
      exact ih (hsame.trans (hiso.view_other hi hexec).symm)

/-! ### The two engines are isolated -/

/-- What the encoder's commands read: the configuration and E. -/
def encoderView (s : State) : Config × Encoder := (s.config, s.enc)

/-- What the decoder's commands read: the configuration and D. -/
def decoderView (s : State) : Config × Decoder := (s.config, s.dec)

/-- DEC_SYM's effect on D and its response depend on the configuration and D alone. -/
theorem takeSymbol_of_decoderView (cp : CodePoint) (s : State) :
    ∃ d r, ∀ s', decoderView s' = decoderView s →
      takeSymbol cp s' = { s' with dec := d, responses := s'.responses ++ [r] } := by
  simp only [decoderView, Prod.mk.injEq]
  obtain ⟨e, he, -⟩ | ⟨he, ht, -⟩ | ⟨he, ht, hr, -⟩ | ⟨g, he, ht, hr, -⟩ := takeSymbol_cases cp s
  · exact ⟨s.dec, ⟨e.code, [], none⟩, fun s' ⟨_, hd⟩ => hd ▸ takeSymbol_of_err (hd ▸ he)⟩
  · refine ⟨{ s.dec with err := some .malformedInput }, ⟨.malformedInput, [], none⟩, fun s' ⟨_, hd⟩ => ?_⟩
    rw [takeSymbol_of_tail (hd ▸ he) (hd ▸ ht), ← hd]
    rfl
  · refine ⟨{ s.dec with err := some .invalidCharacter }, ⟨.invalidCharacter, [], none⟩, fun s' ⟨hc, hd⟩ => ?_⟩
    rw [takeSymbol_of_unresolved (hd ▸ he) (hd ▸ ht) (hc ▸ hr), ← hd]
    rfl
  · refine ⟨(takeGroup s.dec g).1, ⟨.ok, (takeGroup s.dec g).2, none⟩, fun s' ⟨hc, hd⟩ => ?_⟩
    rw [takeSymbol_of_resolved (hd ▸ he) (hd ▸ ht) (hc ▸ hr), ← hd]
    rfl

theorem isolated_encoder : Isolated Instr.ofEncoder encoderView where
  view_port _ _ := rfl
  exec_own {i s s' t} hi hview h := by
    obtain ⟨hc, he⟩ := Prod.mk.inj hview
    cases i with
    | encByte b =>
      obtain ⟨hinv, rfl⟩ := exec_encByte_eq_next.mp h
      refine ⟨_, _, exec_encByte_eq_next.mpr ⟨he ▸ hinv, rfl⟩, ?_, rfl, ?_⟩ <;> simp [encoderView, hc, he]
    | encEnd =>
      obtain ⟨hinv, rfl⟩ := exec_encEnd_eq_next.mp h
      refine ⟨_, _, exec_encEnd_eq_next.mpr ⟨he ▸ hinv, rfl⟩, ?_, rfl, ?_⟩ <;> simp [encoderView, hc, he]
    | _ => cases hi
  view_other {i s t} hi h := by
    obtain ⟨hc, -⟩ := exec_frame h
    refine Prod.ext hc ?_
    cases hd : i.ofDecoder with
    | false =>
      obtain ⟨code, stat, rfl⟩ := eq_respond_of_exec_control hi hd h
      rfl
    | true =>
      cases i with
      | decSym cp => exact (Proofs.decoderCommandsFrame s t cp (.inl h)).1
      | decEnd => exact (Proofs.decoderCommandsFrame s t 0#21 (.inr h)).1
      | _ => cases hd

theorem isolated_decoder : Isolated Instr.ofDecoder decoderView where
  view_port _ _ := rfl
  exec_own {i s s' t} hi hview h := by
    obtain ⟨hc, hd⟩ := Prod.mk.inj hview
    cases i with
    | decSym cp =>
      obtain ⟨hinv, rfl⟩ := exec_decSym_eq_next.mp h
      obtain ⟨d, r, heff⟩ := takeSymbol_of_decoderView cp s
      refine ⟨_, r, exec_decSym_eq_next.mpr ⟨hd ▸ hinv, rfl⟩, ?_, ?_, ?_⟩ <;>
        simp [heff s' hview, heff s rfl, decoderView, hc]
    | decEnd =>
      obtain ⟨hinv, rfl⟩ := exec_decEnd_eq_next.mp h
      refine ⟨_, _, exec_decEnd_eq_next.mpr ⟨hd ▸ hinv, rfl⟩, ?_, rfl, ?_⟩ <;> simp [decoderView, hc, hd]
    | _ => cases hi
  view_other {i s t} hi h := by
    obtain ⟨hc, -⟩ := exec_frame h
    refine Prod.ext hc ?_
    cases he : i.ofEncoder with
    | false =>
      obtain ⟨code, stat, rfl⟩ := eq_respond_of_exec_control he hi h
      rfl
    | true =>
      cases i with
      | encByte b => exact (Proofs.encoderCommandsFrame s t b (.inl h)).1
      | encEnd => exact (Proofs.encoderCommandsFrame s t 0#8 (.inr h)).1
      | _ => cases he

end Sys2Proof.Machine

namespace Sys2Proof.Proofs

open Sys2Proof.Machine

/-- Settles O48: each engine is isolated from the other's commands, so its own commands alone are answered as in
the mixed run. -/
theorem interleavingChangesNothing : Obligations.InterleavingChangesNothing := by
  intro s is hs hwf hport
  have hwf' (own : Instr → Bool) : ∀ i ∈ is.filter own, i.wf = true :=
    fun i hi => hwf i (List.mem_of_mem_filter hi)
  obtain ⟨rs, t, h⟩ := Answers.exists_of_inv is hs
  obtain ⟨te, he, hte⟩ := h.alone isolated_encoder
    (s' := { s with port := commands (is.filter Instr.ofEncoder) }) rfl
  obtain ⟨td, hd, htd⟩ := h.alone isolated_decoder
    (s' := { s with port := commands (is.filter Instr.ofDecoder) }) rfl
  exact ⟨t, te, td, rs, _, _, h.runsTo hwf hport, h.responses, h.length,
    he.runsTo (hwf' _) rfl, he.responses, hd.runsTo (hwf' _) rfl, hd.responses,
    (Prod.mk.inj hte).2.symm, (Prod.mk.inj htd).2.symm, rfl, rfl⟩

/-- Settles O13, from the inverse lookups and the code points they miss. -/
theorem reverseLookupFindsTheIndex : Obligations.ReverseLookupFindsTheIndex :=
  fun c _ => ⟨fun _ => idxMain_eq_some c, idxMain_eq_none, fun _ => idxTail_eq_some c, idxTail_eq_none⟩

/-- Settles O14: the tables are disjoint and bounded by R9's check, and an entry is found at its index. -/
theorem tablesAreDisjointAndInvertible : Obligations.TablesAreDisjointAndInvertible := by
  intro c
  obtain ⟨-, -, -, hmain, htail⟩ := (check_iff_entries c.rom).mp c.wellFormed
  refine ⟨idxMain_eq_none_or_idxTail_eq_none c, fun cp hcp => ⟨?_, ?_⟩, idxMain_romMain c, idxTail_romTail c⟩
  · exact idxMain_eq_none.mpr fun i hi => Nat.not_lt.mpr (hmain i) (hi ▸ hcp)
  · exact idxTail_eq_none.mpr fun j hj => Nat.not_lt.mpr (htail j) (hj ▸ hcp)

/-- Settles O32, by induction on the steps of the run. -/
theorem configurationIsNeverWritten : Obligations.ConfigurationIsNeverWritten :=
  fun _ _ _ h => h.config

end Sys2Proof.Proofs
end

section
/-! PROOFS. The family of spec/30_encoding.md: the language of the strings (R82), the opcode map (R84, R85, R88),
the bounds on a command's response (R86, R87), and the assembler's lines (R90, R91). -/

namespace Sys2Proof

/-! ### A word by its fields -/

theorem formatC_eq_iff {op : BitVec 4} {rsv : BitVec 7} {data : BitVec 21} {w : CommandWord} :
    formatC op rsv data = w ↔ opField w = op ∧ rsvField w = rsv ∧ dataField w = data := by
  refine ⟨?_, fun ⟨ho, hr, hd⟩ => eq_formatC ho hr hd⟩
  rintro rfl
  exact ⟨opField_formatC .., rsvField_formatC .., dataField_formatC ..⟩

theorem opField_and (v w : CommandWord) : opField (v &&& w) = opField v &&& opField w :=
  BitVec.extractLsb'_and

theorem rsvField_and (v w : CommandWord) : rsvField (v &&& w) = rsvField v &&& rsvField w :=
  BitVec.extractLsb'_and

theorem dataField_and (v w : CommandWord) : dataField (v &&& w) = dataField v &&& dataField w :=
  BitVec.extractLsb'_and

/-- A word meets a match under a mask when each of its fields does (R85). -/
theorem and_eq_formatC_iff (w : CommandWord) (mop op : BitVec 4) (mrsv rsv : BitVec 7) (mdata data : BitVec 21) :
    w &&& formatC mop mrsv mdata = formatC op rsv data ↔
      opField w &&& mop = op ∧ rsvField w &&& mrsv = rsv ∧ dataField w &&& mdata = data := by
  rw [eq_comm, formatC_eq_iff, opField_and, rsvField_and, dataField_and, opField_formatC, rsvField_formatC,
    dataField_formatC]

theorem octet_of_dataField (w : CommandWord) : (dataField w).extractLsb' 0 8 = w.extractLsb' 0 8 :=
  BitVec.extractLsb'_extractLsb'_of_le (by decide)

theorem unused_of_dataField (w : CommandWord) : (dataField w).extractLsb' 8 13 = w.extractLsb' 8 13 :=
  BitVec.extractLsb'_extractLsb'_of_le (by decide)

/-- ENC_BYTE's mask keeps DATA[20:8] and drops the octet. -/
theorem and_unusedMask (data : BitVec 21) : data &&& 0x1FFF00#21 = data.extractLsb' 8 13 ++ 0#8 := by
  calc data &&& 0x1FFF00#21
    _ = (data.extractLsb' 8 13 ++ data.extractLsb' 0 8) &&& (BitVec.allOnes 13 ++ 0#8) := by
      rw [BitVec.extractLsb'_append_extractLsb' (w := 13) (len := 8) (x := data)]
      rfl
    _ = data.extractLsb' 8 13 ++ 0#8 := by
      rw [BitVec.and_append, BitVec.and_allOnes, BitVec.and_zero]

theorem and_unusedMask_eq_zero_iff {data : BitVec 21} :
    data &&& 0x1FFF00#21 = 0#21 ↔ data.extractLsb' 8 13 = 0#13 := by
  rw [and_unusedMask]
  refine ⟨fun h => ?_, fun h => by rw [h]; rfl⟩
  calc data.extractLsb' 8 13
    _ = (data.extractLsb' 8 13 ++ 0#8).extractLsb' 8 13 := BitVec.extractLsb'_append_eq_left.symm
    _ = 0#13 := by rw [h]; rfl

/-- DATA is an octet, extended with zeros, exactly when DATA[20:8] is 0 (R88). -/
theorem exists_octet_iff {data : BitVec 21} :
    (∃ b : Octet, data = b.setWidth 21) ↔ data.extractLsb' 8 13 = 0#13 := by
  refine ⟨?_, fun h => ⟨_, (setWidth_octet h).symm⟩⟩
  rintro ⟨b, rfl⟩
  exact extractLsb'_setWidth_octet_high b

/-! ### The decoder is the inverse of the encoder -/

theorem of_withoutData_eq_ok {data : BitVec 21} {i j : Instr} (h : withoutData data i = .ok j) :
    data = 0#21 ∧ i = j := by
  unfold withoutData at h
  split at h
  · cases h
    exact ⟨‹_›, rfl⟩
  · cases h

/-- What the decoder takes with an opcode of 0 to 5 and RSV 0 is a command with that opcode and DATA (R88). -/
theorem encode_of_decodeOperation {op : BitVec 4} {data : BitVec 21} {i : Instr} (hop : op.toNat < 6)
    (h : decodeOperation op data = .ok i) : i.wf = true ∧ encode i = formatC op 0#7 data := by
  unfold decodeOperation at h
  split_ifs at h with h0 h1 hunused h2 h3 h4
  · obtain ⟨rfl, rfl⟩ := of_withoutData_eq_ok h
    exact ⟨rfl, by rw [h0]; rfl⟩
  · cases h
    exact ⟨rfl, by rw [h1, encode, setWidth_octet hunused]⟩
  · obtain ⟨rfl, rfl⟩ := of_withoutData_eq_ok h
    exact ⟨rfl, by rw [h2]; rfl⟩
  · cases h
    exact ⟨rfl, by rw [h3]; rfl⟩
  · obtain ⟨rfl, rfl⟩ := of_withoutData_eq_ok h
    exact ⟨rfl, by rw [h4]; rfl⟩
  · obtain ⟨rfl, rfl⟩ := of_withoutData_eq_ok h
    have h5 : op = 5#4 := by bv_omega
    exact ⟨rfl, by rw [h5]; rfl⟩

/-- What the decoder takes is well-formed and encodes to the word, opcode range by opcode range (R85). -/
theorem encode_of_decode {w : CommandWord} {i : Instr} (h : decode w = .ok i) : i.wf = true ∧ encode i = w := by
  unfold decode at h
  split_ifs at h with h67 h8 hrsv
  · cases h
    exact ⟨by simpa [Instr.wf] using h67, formatC_fields w⟩
  · cases h
    exact ⟨by simpa [Instr.wf] using h8, formatC_fields w⟩
  · have hop : (opField w).toNat < 6 := by bv_omega
    obtain ⟨hwf, henc⟩ := encode_of_decodeOperation hop h
    exact ⟨hwf, henc.trans (eq_formatC rfl (not_not.mp hrsv) rfl)⟩

/-- The decoder takes a word for a command exactly when it is the word of that well-formed command. -/
theorem decode_eq_ok_iff {w : CommandWord} {i : Instr} : decode w = .ok i ↔ i.wf = true ∧ encode i = w := by
  refine ⟨encode_of_decode, ?_⟩
  rintro ⟨hwf, rfl⟩
  exact decode_encode hwf

/-! ### The opcode map on the fields of a word (R85) -/

section rows
variable {w : CommandWord}

theorem decode_eq_ok_iff_fields {i : Instr} {op : BitVec 4} {rsv : BitVec 7} {data : BitVec 21}
    (hwf : i.wf = true) (henc : encode i = formatC op rsv data) :
    decode w = .ok i ↔ opField w = op ∧ rsvField w = rsv ∧ dataField w = data := by
  rw [decode_eq_ok_iff, henc, formatC_eq_iff]
  exact and_iff_right hwf

theorem exists_decode_eq_encByte_iff :
    (∃ b, decode w = .ok (.encByte b)) ↔
      opField w = 1#4 ∧ rsvField w = 0#7 ∧ (dataField w).extractLsb' 8 13 = 0#13 := by
  simp only [decode_eq_ok_iff_fields (i := .encByte _) rfl rfl, exists_and_left, exists_octet_iff]

theorem exists_decode_eq_decSym_iff :
    (∃ cp, decode w = .ok (.decSym cp)) ↔ opField w = 3#4 ∧ rsvField w = 0#7 := by
  simp [decode_eq_ok_iff_fields (i := .decSym _) rfl rfl]

theorem exists_decode_eq_reservedOp67_iff :
    (∃ op rsv data, decode w = .ok (.reservedOp67 op rsv data)) ↔ opField w = 6#4 ∨ opField w = 7#4 := by
  simp [decode_eq_ok_iff, Instr.wf, encode, formatC_eq_iff]

theorem exists_decode_eq_reservedOp8F_iff :
    (∃ op rsv data, decode w = .ok (.reservedOp8F op rsv data)) ↔ 8 ≤ (opField w).toNat := by
  simp [decode_eq_ok_iff, Instr.wf, encode, formatC_eq_iff]

/-! ### The masks of R85 -/

/-- The rows whose mask is the whole word. -/
theorem decode_eq_ok_iff_mask {i : Instr} (hwf : i.wf = true) :
    decode w = .ok i ↔ w &&& 0xFFFFFFFF#32 = encode i := by
  have hmask : w &&& 0xFFFFFFFF#32 = w := BitVec.and_allOnes
  rw [decode_eq_ok_iff, hmask, eq_comm (a := w)]
  exact and_iff_right hwf

theorem exists_decode_eq_encByte_iff_mask :
    (∃ b, decode w = .ok (.encByte b)) ↔ w &&& 0xFFFFFF00#32 = 0x10000000#32 := by
  have hmask := and_eq_formatC_iff w (BitVec.allOnes 4) 1#4 (BitVec.allOnes 7) 0#7 0x1FFF00#21 0#21
  rw [BitVec.and_allOnes, BitVec.and_allOnes, and_unusedMask_eq_zero_iff] at hmask
  exact exists_decode_eq_encByte_iff.trans hmask.symm

theorem exists_decode_eq_decSym_iff_mask :
    (∃ cp, decode w = .ok (.decSym cp)) ↔ w &&& 0xFFE00000#32 = 0x30000000#32 := by
  have hmask := and_eq_formatC_iff w (BitVec.allOnes 4) 3#4 (BitVec.allOnes 7) 0#7 0#21 0#21
  rw [BitVec.and_allOnes, BitVec.and_allOnes, BitVec.and_zero, and_iff_left rfl] at hmask
  exact exists_decode_eq_decSym_iff.trans hmask.symm

/-- A mask of opcode bits alone. -/
theorem and_eq_iff_opField (mask op : BitVec 4) :
    w &&& formatC mask 0#7 0#21 = formatC op 0#7 0#21 ↔ opField w &&& mask = op := by
  simp [and_eq_formatC_iff]

theorem opcode_six_or_seven_iff (op : BitVec 4) : op = 6#4 ∨ op = 7#4 ↔ op &&& 0xE#4 = 6#4 := by
  revert op
  decide

theorem eight_le_opcode_iff (op : BitVec 4) : 8 ≤ op.toNat ↔ op &&& 8#4 = 8#4 := by
  revert op
  decide

theorem exists_decode_eq_reservedOp67_iff_mask :
    (∃ op rsv data, decode w = .ok (.reservedOp67 op rsv data)) ↔ w &&& 0xE0000000#32 = 0x60000000#32 := by
  rw [exists_decode_eq_reservedOp67_iff, opcode_six_or_seven_iff]
  exact (and_eq_iff_opField 0xE#4 6#4).symm

theorem exists_decode_eq_reservedOp8F_iff_mask :
    (∃ op rsv data, decode w = .ok (.reservedOp8F op rsv data)) ↔ w &&& 0x80000000#32 = 0x80000000#32 := by
  rw [exists_decode_eq_reservedOp8F_iff, eight_le_opcode_iff]
  exact (and_eq_iff_opField 8#4 8#4).symm

/-! ### The words that R88 calls legal -/

theorem legal_eq_true_iff_fields : legal w = true ↔ rsvField w = 0#7 ∧
    (opField w = 0#4 ∧ dataField w = 0#21 ∨ opField w = 1#4 ∧ (dataField w).extractLsb' 8 13 = 0#13 ∨
      opField w = 2#4 ∧ dataField w = 0#21 ∨ opField w = 3#4 ∨ opField w = 4#4 ∧ dataField w = 0#21 ∨
      opField w = 5#4 ∧ dataField w = 0#21) := by
  simp only [legal, Bool.and_eq_true, Bool.or_eq_true, decide_eq_true_eq, or_assoc]

theorem legal_eq_true_iff_decode : legal w = true ↔
    decode w = .ok .nop ∨ (∃ b, decode w = .ok (.encByte b)) ∨ decode w = .ok .encEnd ∨
      (∃ cp, decode w = .ok (.decSym cp)) ∨ decode w = .ok .decEnd ∨ decode w = .ok .stat := by
  rw [exists_decode_eq_encByte_iff, exists_decode_eq_decSym_iff,
    decode_eq_ok_iff_fields (i := .nop) rfl rfl, decode_eq_ok_iff_fields (i := .encEnd) rfl rfl,
    decode_eq_ok_iff_fields (i := .decEnd) rfl rfl, decode_eq_ok_iff_fields (i := .stat) rfl rfl,
    legal_eq_true_iff_fields]
  tauto

theorem exists_decode_unreserved_iff :
    (∃ i, decode w = .ok i ∧ i.isReserved = false) ↔ legal w = true := by
  rw [legal_eq_true_iff_decode]
  constructor
  · rintro ⟨i, h, hres⟩
    cases i with
    | nop => exact .inl h
    | encByte b => exact .inr (.inl ⟨b, h⟩)
    | encEnd => exact .inr (.inr (.inl h))
    | decSym cp => exact .inr (.inr (.inr (.inl ⟨cp, h⟩)))
    | decEnd => exact .inr (.inr (.inr (.inr (.inl h))))
    | stat => exact .inr (.inr (.inr (.inr (.inr h))))
    | reservedOp67 op rsv data => cases hres
    | reservedOp8F op rsv data => cases hres
  · rintro (h | ⟨b, h⟩ | h | ⟨cp, h⟩ | h | h) <;> exact ⟨_, h, rfl⟩

end rows

end Sys2Proof

namespace Sys2Proof.Machine

/-! ### The output items of a response -/

/-- What a response may carry, by command (R87): its number of items and their kind. -/
def MayEmit : Instr → List OutItem → Prop
  | .encByte _, out => out.length ≤ 1 ∧ ∀ o ∈ out, ∃ cp, o = .sym cp
  | .encEnd, out => out.length ≤ 1 ∧ ∀ o ∈ out, ∃ cp, o = .sym cp
  | .decSym _, out => out.length ≤ 2 ∧ ∀ o ∈ out, ∃ b, o = .oct b
  | _, out => out = []

theorem MayEmit.length_le {i : Instr} {out : List OutItem} (h : MayEmit i out) : out.length ≤ 2 := by
  have hempty (h : out = []) : out.length ≤ 2 := by simp [h]
  cases i with
  | encByte b => exact h.1.trans (by decide)
  | encEnd => exact h.1.trans (by decide)
  | decSym cp => exact h.1
  | _ => exact hempty h

theorem takeOctet_mayEmit (r : Repertoire) (e : Encoder) (b : Octet) :
    MayEmit (.encByte b) (takeOctet r e b).2 := by
  unfold takeOctet
  dsimp only
  split <;> simp [MayEmit]

theorem closingSymbols_mayEmit (r : Repertoire) (e : Encoder) : MayEmit .encEnd (closingSymbols r e) := by
  unfold closingSymbols
  split <;> simp [MayEmit]

/-- The loop of R160 emits at most one octet per iteration. -/
theorem emitOctets_octets (fuel t n : Nat) :
    (emitOctets fuel t n).1.length ≤ fuel ∧ ∀ o ∈ (emitOctets fuel t n).1, ∃ b, o = .oct b := by
  induction fuel generalizing t n with
  | zero => simp [emitOctets]
  | succ fuel ih =>
    rw [emitOctets]
    split
    · obtain ⟨hlen, hoct⟩ := ih (t % 2 ^ (n - 8)) (n - 8)
      exact ⟨Nat.succ_le_succ hlen, List.forall_mem_cons.mpr ⟨⟨_, rfl⟩, hoct⟩⟩
    · simp

theorem takeSymbol_response (cp : CodePoint) (s : State) :
    ∃ r, (takeSymbol cp s).responses = s.responses ++ [r] ∧ r.stat = none ∧ MayEmit (.decSym cp) r.out := by
  have hempty : MayEmit (.decSym cp) [] := by simp [MayEmit]
  obtain ⟨e, -, h⟩ | ⟨-, -, h⟩ | ⟨-, -, -, h⟩ | ⟨g, -, -, -, h⟩ := takeSymbol_cases cp s <;> rw [h]
  · exact ⟨_, rfl, rfl, hempty⟩
  · exact ⟨_, rfl, rfl, hempty⟩
  · exact ⟨_, rfl, rfl, hempty⟩
  · exact ⟨_, rfl, rfl, emitOctets_octets 2 _ _⟩

/-- The response a completed command adds (R86, R87). -/
theorem exec_response {i : Instr} {s t : State} (h : exec i s = .next t) :
    ∃ r, t.responses = s.responses ++ [r] ∧ (r.stat.isSome = true ↔ i = .stat) ∧ MayEmit i r.out := by
  cases i with
  | nop => cases h; exact ⟨_, rfl, by simp, rfl⟩
  | encByte b =>
    obtain ⟨-, rfl⟩ := exec_encByte_eq_next.mp h
    exact ⟨_, rfl, by simp, takeOctet_mayEmit ..⟩
  | encEnd =>
    obtain ⟨-, rfl⟩ := exec_encEnd_eq_next.mp h
    exact ⟨_, rfl, by simp, closingSymbols_mayEmit ..⟩
  | decSym cp =>
    obtain ⟨-, rfl⟩ := exec_decSym_eq_next.mp h
    obtain ⟨r, hresp, hstat, hout⟩ := takeSymbol_response cp s
    exact ⟨r, hresp, by simp [hstat], hout⟩
  | decEnd =>
    obtain ⟨-, rfl⟩ := exec_decEnd_eq_next.mp h
    exact ⟨_, rfl, by simp, rfl⟩
  | stat =>
    obtain ⟨-, rfl⟩ := exec_stat_eq_next.mp h
    exact ⟨_, rfl, by simp, rfl⟩
  | reservedOp67 op rsv data => cases h; exact ⟨_, rfl, by simp, rfl⟩
  | reservedOp8F op rsv data => cases h; exact ⟨_, rfl, by simp, rfl⟩

theorem step_illegal {s : State} {w : CommandWord} {rest : List HostEvent} {e : DecodeError}
    (hport : s.port = .command w :: rest) (hdec : decode w = .error e) :
    step s = .next (illegalCommand { s with port := rest }) := by
  simp [step, takeInput, hport, hdec]

/-! ### The assembler's lines -/

theorem encode_decSym (cp : CodePoint) : encode (.decSym cp) = 0x30000000#32 ||| cp.setWidth 32 :=
  rfl

end Sys2Proof.Machine

namespace Sys2Proof.Machine.Reference

/-! ### Main*, or Main* Tail (R82) -/

/-- Main groups followed by at most one tail group. -/
def mainsThenTail (ms : List MainIndex) (tail : Option TailIndex) : List Group :=
  ms.map .main ++ tail.toList.map .tail

theorem map_symbolOf_mainsThenTail (r : Repertoire) (ms : List MainIndex) (tail : Option TailIndex) :
    (mainsThenTail ms tail).map (symbolOf r) = ms.map (romMain r) ++ tail.toList.map (romTail r) := by
  simp [mainsThenTail, symbolOf, Function.comp_def]

theorem finalGroup_eq_mainsThenTail (cnt left : Nat) :
    ∃ ms tail, (finalGroup cnt left).toList = mainsThenTail ms tail := by
  unfold finalGroup
  split
  · exact ⟨[], none, rfl⟩
  · exact ⟨[], some _, rfl⟩
  · exact ⟨[_], none, rfl⟩

theorem fullGroups_eq_mains (bytes : List Octet) : ∃ ms : List MainIndex, fullGroups bytes = ms.map .main :=
  ⟨_, List.map_map.symm⟩

theorem toGroups_eq_mainsThenTail (bytes : List Octet) : ∃ ms tail, toGroups bytes = mainsThenTail ms tail := by
  obtain ⟨full, hfull⟩ := fullGroups_eq_mains bytes
  obtain ⟨ms, tail, hfinal⟩ := finalGroup_eq_mainsThenTail (present bytes) (leftOver bytes)
  exact ⟨full ++ ms, tail, by rw [toGroups, hfull, hfinal, mainsThenTail, mainsThenTail, List.map_append,
    List.append_assoc]⟩

theorem resolve_eq_some_iff (c : Config) {cp : CodePoint} {g : Group} :
    resolve c.rom cp = some g ↔ symbolOf c.rom g = cp := by
  refine lookup_eq_some_iff (entry := symbolOf c.rom) (fun g => ?_) fun cp hmiss =>
    resolve_eq_none (fun i => hmiss (.main i)) fun j => hmiss (.tail j)
  cases g with
  | main i => exact resolve_romMain c i
  | tail j => exact resolve_romTail c j

theorem scan_cons_eq_ok_iff (c : Config) {k : Nat} {cp : CodePoint} {cps : List CodePoint} {gs : List Group} :
    scan c.rom false k (cp :: cps) = .ok gs ↔
      ∃ g gs', symbolOf c.rom g = cp ∧ scan c.rom g.isTail (k + 1) cps = .ok gs' ∧ gs = g :: gs' := by
  constructor
  · intro h
    obtain ⟨-, g, gs', hg, hscan, rfl⟩ := of_scan_cons_eq_ok h
    exact ⟨g, gs', (resolve_eq_some_iff c).mp hg, hscan, rfl⟩
  · rintro ⟨g, gs', hg, hscan, rfl⟩
    simp [scan, (resolve_eq_some_iff c).mpr hg, hscan]

theorem scan_afterTail_eq_ok_iff {r : Repertoire} {k : Nat} {cps : List CodePoint} {gs : List Group} :
    scan r true k cps = .ok gs ↔ cps = [] ∧ gs = [] := by
  cases cps with
  | nil => simp [scan, eq_comm]
  | cons cp cps => simp [scan]

/-- The scan of R123 accepts the strings of main symbols with at most one tail symbol, at the end. -/
theorem scan_eq_ok_iff (c : Config) {k : Nat} {cps : List CodePoint} {gs : List Group} :
    scan c.rom false k cps = .ok gs ↔
      ∃ ms tail, gs = mainsThenTail ms tail ∧ cps = gs.map (symbolOf c.rom) := by
  constructor
  · intro h
    induction cps generalizing k gs with
    | nil =>
      cases h
      exact ⟨[], none, rfl, rfl⟩
    | cons cp cps ih =>
      obtain ⟨g, gs, rfl, hscan, rfl⟩ := (scan_cons_eq_ok_iff c).mp h
      cases g with
      | main i =>
        obtain ⟨ms, tail, rfl, rfl⟩ := ih hscan
        exact ⟨i :: ms, tail, rfl, rfl⟩
      | tail j =>
        obtain ⟨rfl, rfl⟩ := scan_afterTail_eq_ok_iff.mp hscan
        exact ⟨[], some j, rfl, rfl⟩
  · rintro ⟨ms, tail, rfl, rfl⟩
    induction ms generalizing k with
    | nil =>
      cases tail with
      | none => rfl
      | some j => exact (scan_cons_eq_ok_iff c).mpr ⟨.tail j, [], rfl, rfl, rfl⟩
    | cons i ms ih => exact (scan_cons_eq_ok_iff c).mpr ⟨.main i, _, rfl, ih, rfl⟩

theorem fromGroups_without_padCheck (gs : List Group) : fromGroups false gs = .ok (octetsOf (kept gs)) := by
  have hlen : (kept gs).length % 8 = 0 := by
    simp only [kept, slice, stripped, List.length_take, List.drop_zero]
    omega
  simp [fromGroups, hlen]

theorem exists_decodeMessage_eq_ok_iff {c : Config} (hpad : c.padCheck = false) {cps : List CodePoint} :
    (∃ bytes, decodeMessage c cps = .ok bytes) ↔ ∃ gs, scan c.rom false 0 cps = .ok gs := by
  unfold decodeMessage
  cases scan c.rom false 0 cps with
  | error e => simp
  | ok gs => simp [hpad, fromGroups_without_padCheck]

end Sys2Proof.Machine.Reference

namespace Sys2Proof.Proofs

open Sys2Proof.Machine Sys2Proof.Machine.Reference

/-- Settles O1, row by row in `decode_encode`. -/
theorem decodeOfEncode : Obligations.DecodeOfEncode :=
  fun _ => decode_encode

/-- Settles O45, from the shape of an encoding's groups and of the groups the scan answers. -/
theorem acceptedStrings : Obligations.AcceptedStrings := by
  refine fun c => ⟨fun bytes => ?_, fun hpad s => ?_⟩
  · obtain ⟨ms, tail, h⟩ := toGroups_eq_mainsThenTail bytes
    exact ⟨ms, tail, by rw [encodeMessage, h, map_symbolOf_mainsThenTail]⟩
  · simp only [exists_decodeMessage_eq_ok_iff hpad, scan_eq_ok_iff, ← map_symbolOf_mainsThenTail]
    exact ⟨fun ⟨gs, ms, tail, hgs, hs⟩ => ⟨ms, tail, hgs ▸ hs⟩, fun ⟨ms, tail, hs⟩ => ⟨_, ms, tail, rfl, hs⟩⟩

/-- Settles O2, from the decoder's branches. -/
theorem encodeOfDecode : Obligations.EncodeOfDecode :=
  fun _ _ => encode_of_decode

/-- Settles O3: the slices are the fields of `legal`, and an operand is the DATA of its command's word. -/
theorem legalWordsAreTheSixCommands : Obligations.LegalWordsAreTheSixCommands := by
  refine fun w => ⟨?_, fun b h => ?_, fun cp h => ?_⟩
  · rw [exists_decode_unreserved_iff, legal_eq_true_iff_fields, unused_of_dataField]
    rfl
  · obtain ⟨-, -, hdata⟩ := (decode_eq_ok_iff_fields rfl rfl).mp h
    rw [← octet_of_dataField, hdata, extractLsb'_setWidth_octet]
  · obtain ⟨-, -, hdata⟩ := (decode_eq_ok_iff_fields rfl rfl).mp h
    exact hdata.symm

/-- Settles O4, row by row. -/
theorem opcodeMapByMatchAndMask : Obligations.OpcodeMapByMatchAndMask := by
  intro w
  have hnop : decode w = .ok .nop ↔ _ := decode_eq_ok_iff_mask rfl
  have hencEnd : decode w = .ok .encEnd ↔ _ := decode_eq_ok_iff_mask rfl
  have hdecEnd : decode w = .ok .decEnd ↔ _ := decode_eq_ok_iff_mask rfl
  have hstat : decode w = .ok .stat ↔ _ := decode_eq_ok_iff_mask rfl
  refine ⟨hnop, exists_decode_eq_encByte_iff_mask, hencEnd, exists_decode_eq_decSym_iff_mask, hdecEnd, hstat,
    exists_decode_eq_reservedOp67_iff_mask, exists_decode_eq_reservedOp8F_iff_mask, ?_⟩
  rw [legal_eq_true_iff_decode, hnop, exists_decode_eq_encByte_iff_mask, hencEnd,
    exists_decode_eq_decSym_iff_mask, hdecEnd, hstat]
  rfl

/-- Settles O31: the word's command, or the answer to an illegal word, adds the response. -/
theorem oneBoundedResponsePerCommand : Obligations.OneBoundedResponsePerCommand := by
  intro s t w rest hport h
  cases hdec : decode w with
  | error e =>
    rw [step_illegal hport hdec] at h
    cases h
    exact ⟨_, rfl, rfl, by simp, by simp, rfl⟩
  | ok i =>
    rw [step_command hport hdec] at h
    obtain ⟨-, hport', -⟩ := exec_frame h
    obtain ⟨r, hresp, hstat, hout⟩ := exec_response h
    refine ⟨r, hresp, hport', hout.length_le, by simpa using hstat, ?_⟩
    cases i with
    | decSym cp => exact hout.2
    | _ => exact hout

/-- Settles O49: a line's words are those of its commands, one after another. -/
theorem assemblerLinesExpand : Obligations.AssemblerLinesExpand := by
  intro r bs os w i j
  refine ⟨congrArg ([·]) (encode_decSym _), congrArg ([·]) (encode_decSym _), ?_, ?_, rfl⟩
  · simp [assemble, encMsg, ← List.map_eq_flatMap]
  · simp [assemble, decMsg, ← List.map_eq_flatMap, Function.comp_def]

end Sys2Proof.Proofs
end

section
/-! PROOFS. The family of spec/40_reference_functions.md: what a message's groups are (R110 to R118), that stripping
undoes the padding (R121 to R124), that the commands of a message compute these functions (R126, R127), and what
`decode` accepts beyond encodings (R128). -/

namespace Sys2Proof.Machine

open Reference

/-! ### The padding mode and the final group (R30, R112, R116) -/

section padding
variable {cnt : Nat}

theorem padMode_of_tail (h1 : 1 ≤ cnt) (h3 : cnt ≤ 3) : padMode cnt = .tail := by
  rw [padMode, if_neg (by omega), if_pos h3]

theorem padMode_of_main (h4 : 4 ≤ cnt) : padMode cnt = .main := by
  rw [padMode, if_neg (by omega), if_neg (by omega)]

theorem paddingBits_of_tail (h1 : 1 ≤ cnt) (h3 : cnt ≤ 3) : paddingBits cnt = 3 - cnt := by
  rw [paddingBits, padMode_of_tail h1 h3]

theorem paddingBits_of_main (h4 : 4 ≤ cnt) : paddingBits cnt = 11 - cnt := by
  rw [paddingBits, padMode_of_main h4]

theorem finalGroup_of_tail (left : Nat) (h1 : 1 ≤ cnt) (h3 : cnt ≤ 3) :
    finalGroup cnt left = some (.tail (BitVec.ofNat 3 (joinBits left (3 - cnt) (ones (3 - cnt))))) := by
  rw [finalGroup, padMode_of_tail h1 h3]

theorem finalGroup_of_main (left : Nat) (h4 : 4 ≤ cnt) :
    finalGroup cnt left = some (.main (BitVec.ofNat 11 (joinBits left (11 - cnt) (ones (11 - cnt))))) := by
  rw [finalGroup, padMode_of_main h4]

/-- The counts of the three padding modes (R30). -/
theorem count_cases (cnt : Nat) : cnt = 0 ∨ (1 ≤ cnt ∧ cnt ≤ 3) ∨ 4 ≤ cnt := by
  omega

theorem paddingBits_le_seven (cnt : Nat) : paddingBits cnt ≤ 7 := by
  obtain rfl | ⟨h1, h3⟩ | h4 := count_cases cnt
  · decide
  · rw [paddingBits_of_tail h1 h3]
    omega
  · rw [paddingBits_of_main h4]
    omega

theorem finalGroup_length (cnt left : Nat) : (finalGroup cnt left).toList.length = if cnt = 0 then 0 else 1 := by
  obtain rfl | ⟨h1, h3⟩ | h4 := count_cases cnt
  · rfl
  · rw [finalGroup_of_tail left h1 h3, if_neg (by omega)]
    rfl
  · rw [finalGroup_of_main left h4, if_neg (by omega)]
    rfl

end padding

namespace Reference

theorem bits_mod_two_pow (v w : Nat) : bits (v % 2 ^ w) w = bits v w := by
  refine List.map_congr_left fun k hk => ?_
  have hk : k < w := List.mem_range.mp hk
  rw [Nat.testBit_mod_two_pow, decide_eq_true (by omega), Bool.true_and]

theorem eq_of_bits_eq {a b w : Nat} (ha : a < 2 ^ w) (hb : b < 2 ^ w) (h : bits a w = bits b w) : a = b := by
  rw [← val_bits ha, h, val_bits hb]

/-- A group filled up with 1s is the bits it was made from, then the 1s. -/
theorem bits_padded {w cnt : Nat} (left : Nat) (hcnt : cnt ≤ w) :
    bits (BitVec.ofNat w (joinBits left (w - cnt) (ones (w - cnt)))).toNat w =
      bits left cnt ++ bits (ones (w - cnt)) (w - cnt) := by
  have happend := bits_append (a := left) (w := cnt) (ones_lt (w - cnt))
  rwa [Nat.add_sub_cancel' hcnt, ← bits_mod_two_pow, ← joinBits_eq (ones_lt _), ← BitVec.toNat_ofNat] at happend

theorem groupStream_finalGroup {cnt : Nat} (left : Nat) (hcnt : cnt ≤ 10) :
    groupStream (finalGroup cnt left).toList =
      bits left cnt ++ bits (ones (paddingBits cnt)) (paddingBits cnt) := by
  obtain rfl | ⟨h1, h3⟩ | h4 := count_cases cnt
  · rfl
  · rw [finalGroup_of_tail left h1 h3, paddingBits_of_tail h1 h3, ← bits_padded left h3]
    exact List.append_nil _
  · rw [finalGroup_of_main left h4, paddingBits_of_main h4, ← bits_padded left (by omega)]
    exact List.append_nil _

/-! ### The groups of a list of octets (R111 to R113) -/

theorem fullGroups_length (bytes : List Octet) : (fullGroups bytes).length = 8 * bytes.length / 11 := by
  simp [fullGroups, stream_length]

theorem present_eq (bytes : List Octet) : present bytes = 8 * bytes.length % 11 := by
  rw [present, stream_length]

/-- A stream cut into main indices and fewer than 11 bits is the stream's groups: the main groups, and the final
group of the bits left over. -/
theorem toGroups_of_stream {bytes : List Octet} {ms : List MainIndex} {e : Encoder} (he : e.Inv)
    (hstream : stream bytes = ms.flatMap (fun i => bits i.toNat 11) ++ bits e.acc.toNat e.cnt.toNat) :
    e.cnt.toNat = 8 * bytes.length % 11 ∧
      toGroups bytes = ms.map .main ++ (finalGroup e.cnt.toNat e.acc.toNat).toList := by
  obtain ⟨hcnt, hacc⟩ := he
  have hwidth (i : MainIndex) : (bits i.toNat 11).length = 11 := bits_length i.toNat 11
  obtain ⟨hmod, hslice⟩ := eq_slice_of_chunks _ hwidth hstream (by rw [bits_length]; omega)
  have hlen := congrArg List.length hstream
  rw [List.length_append, chunks_length _ hwidth, bits_length] at hlen
  rw [bits_length] at hmod
  have hdiv : (stream bytes).length / 11 = ms.length := by omega
  have hfull : fullGroups bytes = ms.map .main := by
    rw [fullGroups, hdiv, hstream,
      map_slices_chunks _ hwidth ms _ fun s => Group.main (BitVec.ofNat 11 (val s))]
    refine List.map_congr_left fun i _ => ?_
    rw [val_bits i.isLt, BitVec.ofNat_toNat, BitVec.setWidth_eq]
  have hleft : leftOver bytes = e.acc.toNat := by
    rw [leftOver, ← hslice, val_bits hacc]
  refine ⟨by rw [hmod, stream_length], ?_⟩
  rw [toGroups, hfull, hleft, present, ← hmod]

/-- The encoder's datapath itself cuts every stream so. -/
theorem exists_mains_of_stream (bytes : List Octet) : ∃ (ms : List MainIndex) (e : Encoder), e.Inv ∧
    stream bytes = ms.flatMap (fun i => bits i.toNat 11) ++ bits e.acc.toNat e.cnt.toNat := by
  obtain ⟨e, ms, -, -, he, hbits⟩ := runsOk_encBytes (s := { State.reset with port := commands (bytes.map .encByte) })
    (bs := bytes) (rest := []) Encoder.reset_inv (List.append_nil _).symm
  exact ⟨ms, e, he, hbits⟩

theorem groupStream_append (gs gs' : List Group) : groupStream (gs ++ gs') = groupStream gs ++ groupStream gs' :=
  List.flatMap_append

theorem groupStream_mains (ms : List MainIndex) :
    groupStream (ms.map .main) = ms.flatMap fun i => bits i.toNat 11 :=
  List.flatMap_map ..

/-- R124's stripping identity on the bits: the groups of a list of octets hold its stream, then the padding. -/
theorem groupStream_toGroups (bytes : List Octet) :
    groupStream (toGroups bytes) = stream bytes ++
      bits (ones (paddingBits (8 * bytes.length % 11))) (paddingBits (8 * bytes.length % 11)) := by
  obtain ⟨ms, e, he, hstream⟩ := exists_mains_of_stream bytes
  obtain ⟨hcnt, hgroups⟩ := toGroups_of_stream he hstream
  rw [hgroups, groupStream_append, groupStream_mains, groupStream_finalGroup _ he.1, ← List.append_assoc, ← hstream,
    hcnt]

/-- R124: `L = D + pad`. -/
theorem groupStream_toGroups_length (bytes : List Octet) :
    (groupStream (toGroups bytes)).length = 8 * bytes.length + paddingBits (8 * bytes.length % 11) := by
  rw [groupStream_toGroups, List.length_append, stream_length, bits_length]

/-- R124: `pad = L mod 8`. -/
theorem paddingBits_eq_stripped (bytes : List Octet) :
    paddingBits (8 * bytes.length % 11) = stripped (toGroups bytes) := by
  have hpad := paddingBits_le_seven (8 * bytes.length % 11)
  rw [stripped, groupStream_toGroups_length, Nat.mul_add_mod, Nat.mod_eq_of_lt (Nat.lt_succ_of_le hpad)]

/-! ### The octets of a list of groups (R121) -/

theorem octetsOf_flatMap (os : List Octet) : octetsOf (os.flatMap fun b => bits b.toNat 8) = os := by
  have hwidth (b : Octet) : (bits b.toNat 8).length = 8 := bits_length b.toNat 8
  have hcut := map_slices_chunks _ hwidth os [] fun s => BitVec.ofNat 8 (val s)
  rw [List.append_nil] at hcut
  rw [octetsOf, chunks_length _ hwidth, Nat.mul_div_cancel_left _ (by decide), hcut]
  exact (List.map_congr_left fun b _ => by simp [val_bits b.isLt]).trans (List.map_id os)

theorem kept_eq_take (gs : List Group) : kept gs = (groupStream gs).take (8 * ((groupStream gs).length / 8)) := by
  rw [kept, slice, stripped, List.drop_zero]
  congr 1
  omega

theorem kept_length (gs : List Group) : (kept gs).length = 8 * ((groupStream gs).length / 8) := by
  rw [kept_eq_take, List.length_take, Nat.min_eq_left (Nat.mul_div_le _ 8)]

/-- `fromGroups` on a reconstructed stream cut into octets and fewer than 8 bits (R121, R125). -/
theorem fromGroups_of_stream (padCheck : Bool) {gs : List Group} {os : List Octet} {rest : List Bool}
    (hstream : groupStream gs = os.flatMap (fun b => bits b.toNat 8) ++ rest) (hrest : rest.length < 8) :
    fromGroups padCheck gs =
      if padCheck = true ∧ rest ≠ bits (ones rest.length) rest.length then .error .malformedInput else .ok os := by
  have hwidth (b : Octet) : (bits b.toNat 8).length = 8 := bits_length b.toNat 8
  obtain ⟨hmod, hslice⟩ := eq_slice_of_chunks _ hwidth hstream hrest
  have hfirst : (groupStream gs).length - (groupStream gs).length % 8 = 8 * ((groupStream gs).length / 8) := by
    omega
  have hremoved : removed gs = rest := by
    rw [removed, stripped, hfirst, ← hslice]
  have hkept : kept gs = os.flatMap fun b => bits b.toNat 8 := by
    have hlen : (groupStream gs).length - stripped gs = (os.flatMap fun b => bits b.toNat 8).length := by
      rw [stripped, ← hmod, hstream, List.length_append, Nat.add_sub_cancel]
    rw [kept, hlen, hstream, slice_append_left]
  have hcheck : ¬ (kept gs).length % 8 ≠ 0 := by
    rw [kept_length]
    omega
  rw [fromGroups, if_neg hcheck, hremoved, stripped, ← hmod, hkept, octetsOf_flatMap]

/-! ### The whole-message decoder on strings of symbols (R123) -/

theorem decodeMessage_of_scan {c : Config} {cs : List CodePoint} {gs : List Group}
    (h : scan c.rom false 0 cs = .ok gs) : decodeMessage c cs = fromGroups c.padCheck gs := by
  rw [decodeMessage, h]

theorem decodeMessage_symbols (c : Config) (ms : List MainIndex) (tail : Option TailIndex) :
    decodeMessage c (ms.map (romMain c.rom) ++ tail.toList.map (romTail c.rom)) =
      fromGroups c.padCheck (mainsThenTail ms tail) := by
  refine decodeMessage_of_scan ((scan_eq_ok_iff c).mpr ⟨ms, tail, rfl, ?_⟩)
  rw [map_symbolOf_mainsThenTail]

theorem decodeMessage_encodeMessage (c : Config) (bytes : List Octet) :
    decodeMessage c (encodeMessage c.rom bytes) = .ok bytes := by
  obtain ⟨ms, tail, hgroups⟩ := toGroups_eq_mainsThenTail bytes
  have hscan : scan c.rom false 0 (encodeMessage c.rom bytes) = .ok (toGroups bytes) :=
    (scan_eq_ok_iff c).mpr ⟨ms, tail, hgroups, rfl⟩
  have hpad := paddingBits_le_seven (8 * bytes.length % 11)
  rw [decodeMessage_of_scan hscan,
    fromGroups_of_stream c.padCheck (groupStream_toGroups bytes) (by rw [bits_length]; omega),
    bits_length, if_neg fun h => h.2 rfl]

/-! ### Where the tail table is used (R118) -/

section tail
variable {bytes : List Octet}

theorem toGroups_of_tail (h1 : 1 ≤ 8 * bytes.length % 11) (h3 : 8 * bytes.length % 11 ≤ 3) :
    ∃ (ms : List MainIndex) (v : TailIndex), toGroups bytes = ms.map .main ++ [.tail v] := by
  obtain ⟨ms, hfull⟩ := fullGroups_eq_mains bytes
  exact ⟨ms, _, by rw [toGroups, present_eq, finalGroup_of_tail _ h1 h3, hfull]; rfl⟩

theorem toGroups_of_not_tail (h : ¬ (1 ≤ 8 * bytes.length % 11 ∧ 8 * bytes.length % 11 ≤ 3)) :
    ∃ ms : List MainIndex, toGroups bytes = ms.map .main := by
  obtain ⟨ms, hfull⟩ := fullGroups_eq_mains bytes
  obtain h0 | htail | h4 := count_cases (8 * bytes.length % 11)
  · exact ⟨ms, by rw [toGroups, present_eq, h0, hfull]; exact List.append_nil _⟩
  · exact absurd htail h
  · exact ⟨ms ++ [_], by rw [toGroups, present_eq, finalGroup_of_main _ h4, hfull, List.map_append]; rfl⟩

theorem count_of_tail_mem {j : TailIndex} (h : .tail j ∈ toGroups bytes) :
    1 ≤ 8 * bytes.length % 11 ∧ 8 * bytes.length % 11 ≤ 3 := by
  by_contra hcount
  obtain ⟨ms, hgroups⟩ := toGroups_of_not_tail hcount
  simp [hgroups] at h

/-- An encoding that ends in a tail symbol has at most 2 bits of padding (R116). -/
theorem stripped_le_two_of_tail_mem {j : TailIndex} (h : .tail j ∈ toGroups bytes) :
    stripped (toGroups bytes) ≤ 2 := by
  obtain ⟨h1, h3⟩ := count_of_tail_mem h
  rw [← paddingBits_eq_stripped, paddingBits_of_tail h1 h3]
  exact Nat.sub_le_sub_left h1 3

end tail

/-- R118's table of `D mod 11` by `n mod 11`. -/
theorem count_by_length : ∀ r < 11, [0, 8, 5, 2, 10, 7, 4, 1, 9, 6, 3][r]? = some (8 * r % 11) ∧
    ((8 * r % 11 = 1 ∨ 8 * r % 11 = 2 ∨ 8 * r % 11 = 3) ↔ (r = 3 ∨ r = 7 ∨ r = 10)) := by
  decide

/-! ### What `decode` accepts beyond encodings (R128) -/

section beyond
variable {c : Config} (hpad : c.padCheck = false)
include hpad

theorem decodeMessage_of_stream {ms : List MainIndex} {tail : Option TailIndex} {os : List Octet}
    {rest : List Bool}
    (hstream : groupStream (mainsThenTail ms tail) = os.flatMap (fun b => bits b.toNat 8) ++ rest)
    (hrest : rest.length < 8) :
    decodeMessage c (ms.map (romMain c.rom) ++ tail.toList.map (romTail c.rom)) = .ok os := by
  rw [decodeMessage_symbols, fromGroups_of_stream _ hstream hrest, hpad, if_neg (by simp)]

theorem decodeMessage_eq_kept (ms : List MainIndex) (tail : Option TailIndex) :
    decodeMessage c (ms.map (romMain c.rom) ++ tail.toList.map (romTail c.rom)) =
      .ok (octetsOf (kept (mainsThenTail ms tail))) := by
  rw [decodeMessage_symbols, hpad, fromGroups_without_padCheck]

end beyond

/-- The first 8 bits of a main group are the octet `i[10:3]`. -/
theorem bits_mainIndex (i : MainIndex) :
    bits i.toNat 11 = bits (i.extractLsb' 3 8).toNat 8 ++ bits (i.toNat % 2 ^ 3) 3 := by
  rw [bits_split i.toNat 8 3, BitVec.extractLsb'_toNat, Nat.shiftRight_eq_div_pow, bits_mod_two_pow _ 8]

/-- A tail symbol whose bits, with those pending, fill no octet changes nothing that is kept. -/
theorem kept_append_tail {gs : List Group} {j : TailIndex} (h : 3 ≤ ((groupStream gs).length + 3) % 8) :
    kept (gs ++ [.tail j]) = kept gs := by
  have hstream : groupStream (gs ++ [.tail j]) = groupStream gs ++ bits j.toNat 3 := by
    rw [groupStream_append]
    exact congrArg _ (List.append_nil _)
  have hdiv : ((groupStream gs).length + 3) / 8 = (groupStream gs).length / 8 := by omega
  rw [kept_eq_take, kept_eq_take, hstream, List.length_append, bits_length, hdiv,
    List.take_append_of_le_length (Nat.mul_div_le _ 8)]

theorem symbolOf_injective (c : Config) : Function.Injective (symbolOf c.rom) := by
  intro g g' h
  have hg : resolve c.rom (symbolOf c.rom g) = some g := (resolve_eq_some_iff c).mpr rfl
  have hg' : resolve c.rom (symbolOf c.rom g) = some g' := (resolve_eq_some_iff c).mpr h.symm
  exact Option.some.inj (hg.symm.trans hg')

theorem groupStream_mainsThenTail_length (ms : List MainIndex) (tail : Option TailIndex) :
    (groupStream (mainsThenTail ms tail)).length = 11 * ms.length + (if tail.isSome then 3 else 0) := by
  have hmains : (groupStream (ms.map .main)).length = 11 * ms.length := by
    rw [groupStream_mains]
    exact chunks_length _ (fun i : MainIndex => bits_length i.toNat 11) ms
  rw [mainsThenTail, groupStream_append, List.length_append, hmains]
  cases tail <;> simp [groupStream, Group.width]

/-- With more than 2 bits to strip, a string that ends in a tail symbol is no encoding. -/
theorem encodeMessage_ne_of_stripped (c : Config) {ms : List MainIndex} {j : TailIndex}
    (h : 3 ≤ (11 * ms.length + 3) % 8) (bytes : List Octet) :
    encodeMessage c.rom bytes ≠ ms.map (romMain c.rom) ++ [romTail c.rom j] := by
  intro henc
  have hgroups : toGroups bytes = mainsThenTail ms (some j) :=
    (List.map_injective_iff.mpr (symbolOf_injective c))
      (henc.trans (map_symbolOf_mainsThenTail c.rom ms (some j)).symm)
  have hstripped := stripped_le_two_of_tail_mem (bytes := bytes) (j := j) (by simp [hgroups, mainsThenTail])
  rw [hgroups, stripped, groupStream_mainsThenTail_length] at hstripped
  exact absurd h (Nat.not_le_of_lt (Nat.lt_succ_of_le hstripped))

end Reference

/-! ### Runs of commands with their responses -/

/-- `n` steps from `s` to `t` that deliver the responses `rs`, one each. -/
def RunsDelivering (s : State) (n : Nat) (t : State) (rs : List Response) : Prop :=
  RunsTo s n t ∧ t.responses = s.responses ++ rs ∧ rs.length = n

namespace RunsDelivering
variable {s t u : State} {i : Instr} {rest : List HostEvent} {r : Response} {rs rs' : List Response} {j k : Nat}

theorem trans (h : RunsDelivering s j t rs) (h' : RunsDelivering t k u rs') :
    RunsDelivering s (j + k) u (rs ++ rs') := by
  obtain ⟨hrun, hresp, hlen⟩ := h
  obtain ⟨hrun', hresp', hlen'⟩ := h'
  exact ⟨hrun.trans hrun', by rw [hresp', hresp, List.append_assoc], by rw [List.length_append, hlen, hlen']⟩

theorem single (hwf : i.wf = true) (hport : s.port = .command (encode i) :: rest)
    (hexec : exec i { s with port := rest } = .next u) (hu : u.responses = s.responses ++ [r]) :
    RunsDelivering s 1 u [r] :=
  ⟨runsTo_succ.mpr ⟨u, (step_command hport (decode_encode hwf)).trans hexec, runsTo_zero.mpr rfl⟩, hu, rfl⟩

/-- A command before a run. -/
theorem cons (hwf : i.wf = true) (hport : s.port = .command (encode i) :: rest)
    (hexec : exec i { s with port := rest } = .next u) (hu : u.responses = s.responses ++ [r])
    (h : RunsDelivering u k t rs) : RunsDelivering s (k + 1) t (r :: rs) :=
  Nat.add_comm k 1 ▸ (single hwf hport hexec hu).trans h

end RunsDelivering

theorem commands_append (is js : List Instr) : commands (is ++ js) = commands is ++ commands js :=
  List.map_append

theorem outItems_append (rs rs' : List Response) : outItems (rs ++ rs') = outItems rs ++ outItems rs' :=
  List.flatMap_append

/-! ### An encoder message (R126) -/

theorem closingSymbols_eq (r : Repertoire) (e : Encoder) :
    closingSymbols r e = ((finalGroup e.cnt.toNat e.acc.toNat).toList.map (symbolOf r)).map .sym := by
  unfold closingSymbols
  cases finalGroup e.cnt.toNat e.acc.toNat <;> rfl

/-- The symbols of the full groups and of the final group are the message's encoding (R114). -/
theorem encodeMessage_of_stream (r : Repertoire) {bytes : List Octet} {ms : List MainIndex} {e : Encoder}
    (he : e.Inv) (hstream : stream bytes = ms.flatMap (fun i => bits i.toNat 11) ++ bits e.acc.toNat e.cnt.toNat) :
    (encodeMessage r bytes).map .sym = ms.map (fun i => OutItem.sym (romMain r i)) ++ closingSymbols r e := by
  obtain ⟨-, hgroups⟩ := toGroups_of_stream he hstream
  rw [encodeMessage, hgroups, closingSymbols_eq, List.map_append, List.map_append, List.map_map, List.map_map]
  rfl

/-! ### A decoder message (R127) -/

section responses
variable {rs : List Response} {r : Response}

theorem stringResult_append_ok (h : r.code = .ok) : stringResult (rs ++ [r]) = some (.ok (octetsEmitted (rs ++ [r]))) := by
  simp [stringResult, h]

theorem stringResult_append_error {e : MessageError} (h : r.code = e.code) :
    stringResult (rs ++ [r]) = some (.error e) := by
  cases e <;> simp [stringResult, h, MessageError.code]

theorem octetsEmitted_of_outItems {os : List Octet} (h : outItems rs = os.map .oct) : octetsEmitted rs = os := by
  rw [octetsEmitted, h, List.filterMap_map]
  exact List.filterMap_some

theorem firstFailure_eq_none : firstFailure rs = none ↔ ∀ r ∈ rs, r.code = .ok := by
  simp [firstFailure]

theorem firstFailure_append_of_some {k : Nat} (rs' : List Response) (h : firstFailure rs = some k) :
    firstFailure (rs ++ rs') = some k := by
  rw [firstFailure] at h ⊢
  rw [List.findIdx?_append, h]
  rfl

theorem firstFailure_append_of_failed (hok : ∀ r ∈ rs, r.code = .ok) (h : r.code ≠ .ok) :
    firstFailure (rs ++ [r]) = some rs.length := by
  have hnone := firstFailure_eq_none.mpr hok
  rw [firstFailure] at hnone ⊢
  simp [List.findIdx?_append, hnone, h]

theorem firstFailure_cons_of_failed (h : r.code ≠ .ok) : firstFailure (r :: rs) = some 0 := by
  simp [firstFailure, List.findIdx?_cons, h]

theorem firstFailure_cons_of_ok {k : Nat} (h : r.code = .ok) (hrs : firstFailure rs = some k) :
    firstFailure (r :: rs) = some (k + 1) := by
  rw [firstFailure] at hrs ⊢
  simp [List.findIdx?_cons, h, hrs]

end responses

theorem MessageError.code_ne_ok (e : MessageError) : e.code ≠ .ok := by
  cases e <;> decide

/-- A stored error survives every DEC_SYM (R161). -/
theorem runsDelivering_decSyms_of_err {s : State} {e : MessageError} (cs : List CodePoint) {rest : List HostEvent}
    (hs : s.dec.Inv) (herr : s.dec.err = some e) (hport : s.port = commands (cs.map .decSym) ++ rest) :
    ∃ rs, RunsDelivering s cs.length { s with port := rest, responses := s.responses ++ rs } rs := by
  induction cs generalizing s with
  | nil =>
    obtain rfl : s.port = rest := hport
    exact ⟨[], runsTo_zero.mpr (by simp), rfl, rfl⟩
  | cons c cs ih =>
    obtain ⟨rs, hrun⟩ := ih
      (s := respond e.code [] none { s with port := commands (cs.map .decSym) ++ rest }) hs herr rfl
    refine ⟨⟨e.code, [], none⟩ :: rs, ?_⟩
    simpa [respond] using
      RunsDelivering.cons rfl hport (exec_decSym_eq_next.mpr ⟨hs, takeSymbol_of_err herr⟩) rfl hrun

/-- Where the scan of R123 stops, the code point is a misplaced or an invalid one, or the scan stops later. -/
theorem scan_cons_eq_error {r : Repertoire} {afterTail : Bool} {k j : Nat} {c : CodePoint} {cs : List CodePoint}
    {e : MessageError} (h : scan r afterTail k (c :: cs) = .error (j, e)) :
    (j = k ∧ afterTail = true ∧ e = .malformedInput) ∨
    (j = k ∧ afterTail = false ∧ resolve r c = none ∧ e = .invalidCharacter) ∨
    (afterTail = false ∧ ∃ g, resolve r c = some g ∧ scan r g.isTail (k + 1) cs = .error (j, e)) := by
  rw [scan] at h
  split at h
  · next htail =>
    cases h
    exact .inl ⟨rfl, htail, rfl⟩
  · next htail =>
    have htail := eq_false_of_ne_true htail
    split at h
    · next hres =>
      cases h
      exact .inr (.inl ⟨rfl, htail, hres, rfl⟩)
    · next g hres =>
      split at h
      · cases h
      · next hscan =>
        cases h
        exact .inr (.inr ⟨htail, g, hres, hscan⟩)

/-- `n` DEC_SYMs from `s`, with `rest` behind them on the port, of which the one at position `i` is the first that is
not answered OK; they leave D with the error `e`. -/
def SymbolsFailAt (s : State) (n : Nat) (rest : List HostEvent) (i : Nat) (e : MessageError) : Prop :=
  ∃ (d : Decoder) (rs : List Response),
    RunsDelivering s n { s with port := rest, dec := d, responses := s.responses ++ rs } rs ∧
    d.Inv ∧ d.err = some e ∧ firstFailure rs = some i

/-- Error entry at the first code point decides the message (R205, R161). -/
theorem symbolsFailAt_zero {s : State} {c : CodePoint} {cs : List CodePoint} {rest : List HostEvent}
    {e : MessageError} (hs : s.dec.Inv) (hport : s.port = commands ((c :: cs).map .decSym) ++ rest)
    (htake : ∀ p, takeSymbol c { s with port := p } = raise e { s with port := p }) :
    SymbolsFailAt s (c :: cs).length rest 0 e := by
  obtain ⟨rs, hrun⟩ := runsDelivering_decSyms_of_err cs
    (s := raise e { s with port := commands (cs.map .decSym) ++ rest }) hs rfl rfl
  refine ⟨{ s.dec with err := some e }, ⟨e.code, [], none⟩ :: rs, ?_, hs, rfl,
    firstFailure_cons_of_failed e.code_ne_ok⟩
  simpa [raise, respond] using
    RunsDelivering.cons rfl hport (exec_decSym_eq_next.mpr ⟨hs, htake _⟩) rfl hrun

/-- DEC_SYMs fail first where the scan stops, and leave D with the scan's error (R127). -/
theorem symbolsFailAt_of_scan_error {s : State} {cs : List CodePoint} {k j : Nat} {e : MessageError}
    {rest : List HostEvent} (hs : s.dec.Inv) (herr : s.dec.err = none)
    (hport : s.port = commands (cs.map .decSym) ++ rest)
    (hscan : scan s.config.rom s.dec.tail k cs = .error (j, e)) :
    ∃ i, SymbolsFailAt s cs.length rest i e ∧ j = k + i := by
  induction cs generalizing s k with
  | nil => cases hscan
  | cons c cs ih =>
    obtain ⟨hjk, htail, rfl⟩ | ⟨hjk, htail, hres, rfl⟩ | ⟨htail, g, hres, hscan'⟩ := scan_cons_eq_error hscan
    · exact ⟨0, symbolsFailAt_zero hs hport fun _ => takeSymbol_of_tail herr htail, hjk⟩
    · exact ⟨0, symbolsFailAt_zero hs hport fun _ => takeSymbol_of_unresolved herr htail hres, hjk⟩
    · obtain ⟨i, ⟨d, rs, hrun, hd, hderr, hfail⟩, hj⟩ := ih
        (s := respond .ok (takeGroup s.dec g).2 none
          { s with port := commands (cs.map .decSym) ++ rest, dec := (takeGroup s.dec g).1 })
        (takeGroup_inv hs) herr rfl (by simpa [htail] using hscan')
      refine ⟨i + 1, ⟨d, ⟨.ok, (takeGroup s.dec g).2, none⟩ :: rs, ?_, hd, hderr,
        firstFailure_cons_of_ok rfl hfail⟩, by omega⟩
      simpa [respond] using RunsDelivering.cons rfl hport
        (exec_decSym_eq_next.mpr ⟨hs, takeSymbol_of_resolved herr htail hres⟩) rfl hrun

/-- DEC_END after the DEC_SYMs of a message: one more response, with the closing code, and D at its start state. -/
theorem runsDelivering_decMsg {s : State} {d : Decoder} {n : Nat} {rest : List HostEvent} {rs : List Response}
    (hd : d.Inv)
    (h : RunsDelivering s n
      { s with port := commands [.decEnd] ++ rest, dec := d, responses := s.responses ++ rs } rs) :
    RunsDelivering s (n + 1)
      { s with
        port := rest
        dec := Decoder.reset
        responses := s.responses ++ (rs ++ [⟨closingCode s.config.padCheck d, [], none⟩]) }
      (rs ++ [⟨closingCode s.config.padCheck d, [], none⟩]) := by
  refine h.trans ?_
  rw [← List.append_assoc]
  exact RunsDelivering.single rfl rfl (exec_decEnd_eq_next.mpr ⟨hd, rfl⟩) rfl

theorem closingCode_of_err {padCheck : Bool} {d : Decoder} {e : MessageError} (h : d.err = some e) :
    closingCode padCheck d = e.code := by
  rw [closingCode, h]

/-- With no error stored, DEC_END's code is what `fromGroups` answers on the groups whose last bits D holds (R170). -/
theorem closingCode_of_stream {padCheck : Bool} {d : Decoder} {gs : List Group} {os : List Octet} (hd : d.Inv)
    (herr : d.err = none)
    (hstream : groupStream gs = os.flatMap (fun b => bits b.toNat 8) ++ bits d.acc.toNat d.cnt.toNat) :
    (fromGroups padCheck gs = .ok os ∧ closingCode padCheck d = .ok) ∨
      (fromGroups padCheck gs = .error .malformedInput ∧ closingCode padCheck d = MessageError.malformedInput.code) := by
  have hbits : bits d.acc.toNat d.cnt.toNat = bits (ones d.cnt.toNat) d.cnt.toNat ↔ d.acc.toNat = ones d.cnt.toNat :=
    ⟨eq_of_bits_eq hd (ones_lt _), congrArg (bits · _)⟩
  have hcheck : (padCheck && !paddingOk d) = true ↔
      padCheck = true ∧ bits d.acc.toNat d.cnt.toNat ≠ bits (ones d.cnt.toNat) d.cnt.toNat := by
    simp [paddingOk, hbits]
  have hfrom := fromGroups_of_stream padCheck hstream (by rw [bits_length]; exact d.cnt.isLt)
  rw [bits_length] at hfrom
  rw [hfrom, closingCode, herr]
  by_cases hfail : (padCheck && !paddingOk d) = true
  · exact .inr ⟨if_pos (hcheck.mp hfail), if_pos hfail⟩
  · exact .inl ⟨if_neg (mt hcheck.mpr hfail), if_neg hfail⟩

end Sys2Proof.Machine

namespace Sys2Proof.Proofs

open Sys2Proof.Machine Sys2Proof.Machine.Reference

/-- Settles O41, from the stripping identity on the bits: what is kept is the stream, what is removed the padding. -/
theorem decodeOfEncodedMessage : Obligations.DecodeOfEncodedMessage := by
  intro c bytes
  exact ⟨groupStream_toGroups_length bytes, paddingBits_eq_stripped bytes, decodeMessage_encodeMessage c bytes⟩

/-- Settles O39: the ENC_BYTEs emit the full groups' symbols and leave E the final group's bits, and ENC_END emits
the final group's symbol. -/
theorem encoderMessageComputesEncode : Obligations.EncoderMessageComputesEncode := by
  intro s bs rest hs hcnt hport
  rw [encMsg, commands_append, List.append_assoc] at hport
  obtain ⟨e, ms, _, ⟨hrun, rs, rfl, hlen, hok, hout⟩, he, hbits⟩ := runsOk_encBytes hs hport
  have hstream : stream bs = ms.flatMap (fun i => bits i.toNat 11) ++ bits e.acc.toNat e.cnt.toNat := by
    simpa [hcnt] using hbits
  have hend : RunsDelivering s (bs.length + 1) _ (rs ++ [⟨.ok, closingSymbols s.config.rom e, none⟩]) :=
    RunsDelivering.trans ⟨hrun, rfl, hlen⟩
      (RunsDelivering.single rfl rfl (exec_encEnd_eq_next.mpr ⟨he, rfl⟩) rfl)
  obtain ⟨hrun, -, hlen⟩ := hend
  refine ⟨rs ++ [⟨.ok, closingSymbols s.config.rom e, none⟩], ?_, hlen, ?_, ?_⟩
  · rw [← List.append_assoc]
    exact hrun
  · simpa [or_imp, forall_and] using hok
  · rw [outItems_append, hout, encodeMessage_of_stream s.config.rom he hstream]
    simp [outItems]

/-- Settles O40, by what the scan answers and then by what the padding check does. -/
theorem decoderMessageComputesDecode : Obligations.DecoderMessageComputesDecode := by
  intro s cs rest hstart hport
  rw [decMsg, commands_append, List.append_assoc] at hport
  have hinv : s.dec.Inv := hstart ▸ Decoder.reset_inv
  have herr : s.dec.err = none := by rw [hstart]
  have htail : s.dec.tail = false := by rw [hstart]
  match hscan : scan s.config.rom false 0 cs with
  | .error (j, e) =>
    obtain ⟨i, ⟨d, rs, hsyms, hd, hderr, hfail⟩, rfl⟩ :=
      symbolsFailAt_of_scan_error hinv herr hport (htail ▸ hscan)
    obtain ⟨hrun, -, hlen⟩ := runsDelivering_decMsg hd hsyms
    have hdecode : decodeMessage s.config cs = .error e := by rw [decodeMessage, hscan]
    have hat : failsAt s.config cs = some i := by rw [failsAt, hscan, Nat.zero_add]
    rw [hdecode, hat]
    exact ⟨_, hrun, hlen, stringResult_append_error (closingCode_of_err hderr),
      firstFailure_append_of_some _ hfail, nofun⟩
  | .ok gs =>
    obtain ⟨d, os, _, ⟨hsyms, rs, rfl, hsymsLen, hok, hout⟩, hd, hderr, hbits⟩ :=
      runsOk_decSyms hinv herr hport (htail ▸ hscan)
    have hstream : groupStream gs = os.flatMap (fun b => bits b.toNat 8) ++ bits d.acc.toNat d.cnt.toNat := by
      simpa [hstart] using hbits
    obtain ⟨hrun, -, hlen⟩ := runsDelivering_decMsg hd ⟨hsyms, rfl, hsymsLen⟩
    have hdecode := decodeMessage_of_scan hscan
    obtain ⟨hfrom, hcode⟩ | ⟨hfrom, hcode⟩ := closingCode_of_stream (padCheck := s.config.padCheck) hd hderr hstream
    · have hat : failsAt s.config cs = none := by simp [failsAt, hscan, hfrom]
      rw [hcode] at hrun hlen
      have hok' : ∀ r ∈ rs ++ [⟨.ok, [], none⟩], r.code = .ok := by
        simpa [or_imp, forall_and] using hok
      have hout' : outItems (rs ++ [⟨.ok, [], none⟩]) = os.map .oct := by
        rw [outItems_append, hout]
        exact List.append_nil _
      rw [hdecode, hfrom, hat]
      refine ⟨_, hrun, hlen, ?_, firstFailure_eq_none.mpr hok', ?_⟩
      · rw [stringResult_append_ok rfl, octetsEmitted_of_outItems hout']
      · rintro _ ⟨⟩
        exact ⟨hok', hout'⟩
    · have hat : failsAt s.config cs = some rs.length := by simp [failsAt, hscan, hfrom, hsymsLen]
      rw [hdecode, hfrom, hat]
      exact ⟨_, hrun, hlen, stringResult_append_error hcode,
        firstFailure_append_of_failed hok (ne_of_eq_of_ne hcode (MessageError.code_ne_ok _)), nofun⟩

/-- Settles O42: the padding is `paddingBits` of the bits left over. -/
theorem paddingIsAtMostSeven : Obligations.PaddingIsAtMostSeven := by
  refine ⟨fun bytes => ⟨paddingBits (8 * bytes.length % 11), groupStream_toGroups_length bytes,
    paddingBits_le_seven _, fun h => by rw [h]; rfl, paddingBits_of_main, paddingBits_of_tail⟩, ?_, ?_⟩
  · intro bytes h
    rw [groupStream_toGroups_length, h]
    rfl
  · intro bytes h
    rw [groupStream_toGroups_length, h]
    rfl

/-- Settles O43: `D div 11` full groups, and one more exactly where bits are left over. -/
theorem encodedLength : Obligations.EncodedLength := by
  intro r bytes
  rw [encodeMessage, List.length_map, toGroups, List.length_append, fullGroups_length, finalGroup_length, present_eq]
  split <;> omega

/-- Settles O44: only the final group of 1 to 3 bits left over is a tail group. -/
theorem tailOnlyLast : Obligations.TailOnlyLast := by
  intro bytes
  obtain ⟨htable, hiff⟩ := count_by_length (bytes.length % 11) (Nat.mod_lt _ (by decide))
  have hmod : 8 * (bytes.length % 11) % 11 = 8 * bytes.length % 11 := by omega
  rw [hmod] at htable hiff
  exact ⟨fun h => toGroups_of_tail (by omega) (by omega), fun h => toGroups_of_not_tail (by omega), htable, hiff⟩

/-- Settles O46: `L - L mod 8` bits are kept. -/
theorem lengthCheckNeverFails : Obligations.LengthCheckNeverFails := by
  intro gs
  refine ⟨by rw [kept_length, Nat.mul_mod_right], _, fromGroups_without_padCheck gs, ?_⟩
  rw [octetsOf, List.length_map, List.length_range, kept_length, Nat.mul_div_cancel_left _ (by decide)]

/-- Settles O47: each string's stream is its octets and fewer than 8 bits, and a tail symbol at the end of an encoding
leaves at most 2 bits to strip. -/
theorem decodeIsNotInjective : Obligations.DecodeIsNotInjective := by
  refine fun c hpad => ⟨fun j => ?_, fun i => ?_, fun i j => ?_, fun ms j => ?_⟩
  · exact decodeMessage_of_stream hpad (ms := []) (tail := some j) (os := []) (List.append_nil (bits j.toNat 3))
      (by simp)
  · refine decodeMessage_of_stream hpad (ms := [i]) (tail := none) (rest := bits (i.toNat % 2 ^ 3) 3) ?_ (by simp)
    simpa [mainsThenTail, groupStream, Group.value, Group.width] using bits_mainIndex i
  · refine decodeMessage_of_stream hpad (ms := [i]) (tail := some j)
      (rest := bits (i.toNat % 2 ^ 3) 3 ++ bits j.toNat 3) ?_ (by simp)
    simpa [mainsThenTail, groupStream, Group.value, Group.width] using congrArg (· ++ bits j.toNat 3) (bits_mainIndex i)
  · refine ⟨_, decodeMessage_eq_kept hpad ms (some j), fun h => ⟨?_, encodeMessage_ne_of_stripped c h⟩⟩
    have hmains := groupStream_mainsThenTail_length ms none
    have hkept : kept (mainsThenTail ms none ++ [.tail j]) = kept (mainsThenTail ms none) :=
      kept_append_tail (by rw [hmains]; exact h)
    have hsplit : mainsThenTail ms (some j) = mainsThenTail ms none ++ [.tail j] := by simp [mainsThenTail]
    rw [hsplit, hkept, ← decodeMessage_eq_kept hpad ms none]
    simp

end Sys2Proof.Proofs
end

section
/-! PROOFS. The family of spec/41_encoder_commands.md: what ENC_BYTE (R140) and ENC_END (R144) emit and keep, by the
count of bits pending. -/

namespace Sys2Proof.Machine

/-! ### Bits put after bits (R10, R15) -/

theorem joinBits_lt {a k b m : Nat} (ha : a < 2 ^ m) (hb : b < 2 ^ k) : joinBits a k b < 2 ^ (m + k) := by
  rw [Nat.add_comm]
  exact Nat.append_lt hb ha

/-- Without its last `k` bits, a join is the join with the rest of the bits put after. -/
theorem joinBits_div_two_pow (a b : Nat) {n k : Nat} (hk : k ≤ n) :
    joinBits a n b / 2 ^ k = joinBits a (n - k) (b / 2 ^ k) := by
  have hshift : a <<< n / 2 ^ k = a <<< (n - k) := by
    rw [← Nat.shiftRight_eq_div_pow, Nat.shiftLeft_sub a hk]
  rw [joinBits, Nat.or_div_two_pow, hshift, joinBits]

/-- The last `k` bits of a join are those of the bits put after. -/
theorem joinBits_mod_two_pow (a b : Nat) {n k : Nat} (hk : k ≤ n) : joinBits a n b % 2 ^ k = b % 2 ^ k := by
  have hshift : a <<< n % 2 ^ k = 0 := by
    rw [Nat.shiftLeft_eq]
    exact Nat.mod_eq_zero_of_dvd ((pow_dvd_pow 2 hk).mul_left a)
  rw [joinBits, Nat.or_mod_two_pow, hshift, Nat.zero_or]

theorem toNat_ofNat_of_lt {w v : Nat} (h : v < 2 ^ w) : (BitVec.ofNat w v).toNat = v := by
  rw [BitVec.toNat_ofNat, Nat.mod_eq_of_lt h]

theorem ofNat_mod_two_pow (w v : Nat) : BitVec.ofNat w (v % 2 ^ w) = BitVec.ofNat w v :=
  BitVec.eq_of_toNat_eq (by rw [BitVec.toNat_ofNat, BitVec.toNat_ofNat, Nat.mod_mod])

/-- Bits filled up with 1s to the width of a group fit it: the group's value is theirs. -/
theorem toNat_padded {w cnt left : Nat} (hcnt : cnt ≤ w) (hleft : left < 2 ^ cnt) :
    (BitVec.ofNat w (joinBits left (w - cnt) (ones (w - cnt)))).toNat = joinBits left (w - cnt) (ones (w - cnt)) := by
  have hlt := joinBits_lt hleft (ones_lt (w - cnt))
  rw [Nat.add_sub_cancel' hcnt] at hlt
  exact toNat_ofNat_of_lt hlt

/-! ### The encoder's datapath by count -/

/-- Up to 2 bits pending: the octet completes no group (R140). -/
theorem takeOctet_of_count_le_two (r : Repertoire) {e : Encoder} (b : Octet) (h : e.cnt.toNat ≤ 2) :
    takeOctet r e b =
      (⟨BitVec.ofNat 10 (joinBits e.acc.toNat 8 b.toNat), BitVec.ofNat 4 (e.cnt.toNat + 8)⟩, []) := by
  rw [takeOctet, if_neg (by omega)]

/-- From 3 bits pending on: the octet's first `11 - E.cnt` bits complete a group, and the others stay (R140). -/
theorem takeOctet_of_three_le_count (r : Repertoire) {e : Encoder} (b : Octet) (h3 : 3 ≤ e.cnt.toNat)
    (h10 : e.cnt.toNat ≤ 10) :
    takeOctet r e b =
      (⟨BitVec.ofNat 10 (b.toNat % 2 ^ (e.cnt.toNat - 3)), BitVec.ofNat 4 (e.cnt.toNat - 3)⟩,
        [.sym (romMain r (BitVec.ofNat 11
          (joinBits e.acc.toNat (11 - e.cnt.toNat) (b.toNat / 2 ^ (e.cnt.toNat - 3)))))]) := by
  have hk : e.cnt.toNat - 3 ≤ 8 := by omega
  have hleft : e.cnt.toNat + 8 - 11 = e.cnt.toNat - 3 := by omega
  have hfront : 8 - (e.cnt.toNat - 3) = 11 - e.cnt.toNat := by omega
  have hwidth : e.cnt.toNat + 8 - 1 - (e.cnt.toNat - 3) + 1 = 11 := by omega
  simp only [takeOctet, if_pos (show 11 ≤ e.cnt.toNat + 8 by omega), hleft, bitField, hwidth,
    joinBits_mod_two_pow _ _ hk, joinBits_div_two_pow _ _ hk, hfront, ofNat_mod_two_pow]

theorem closingSymbols_of_zero (r : Repertoire) {e : Encoder} (h : e.cnt.toNat = 0) : closingSymbols r e = [] := by
  rw [closingSymbols, h]
  rfl

theorem closingSymbols_of_tail (r : Repertoire) {e : Encoder} (h1 : 1 ≤ e.cnt.toNat) (h3 : e.cnt.toNat ≤ 3) :
    closingSymbols r e =
      [.sym (romTail r (BitVec.ofNat 3 (joinBits e.acc.toNat (3 - e.cnt.toNat) (ones (3 - e.cnt.toNat)))))] := by
  rw [closingSymbols, finalGroup_of_tail _ h1 h3]
  rfl

theorem closingSymbols_of_main (r : Repertoire) {e : Encoder} (h4 : 4 ≤ e.cnt.toNat) :
    closingSymbols r e =
      [.sym (romMain r (BitVec.ofNat 11 (joinBits e.acc.toNat (11 - e.cnt.toNat) (ones (11 - e.cnt.toNat)))))] := by
  rw [closingSymbols, finalGroup_of_main _ h4]
  rfl

end Sys2Proof.Machine

namespace Sys2Proof.Proofs

open Sys2Proof.Machine

/-- Settles O18: the datapath in each of the two ranges of the count, with no value cut by the width of its field. -/
theorem encByteByCount : Obligations.EncByteByCount := by
  rintro s b ⟨h10, hacc⟩
  refine ⟨fun h2 => ?_, fun h3 => ?_⟩
  · have hjoin : joinBits s.enc.acc.toNat 8 b.toNat < 2 ^ 10 :=
      (joinBits_lt hacc b.isLt).trans_le (Nat.pow_le_pow_right (by decide) (by omega))
    refine ⟨⟨_, _⟩, toNat_ofNat_of_lt hjoin, toNat_ofNat_of_lt (by omega),
      exec_encByte_eq_next.mpr ⟨⟨h10, hacc⟩, ?_⟩⟩
    rw [takeOctet_of_count_le_two _ _ h2]
    rfl
  · have hdiv : b.toNat / 2 ^ (s.enc.cnt.toNat - 3) < 2 ^ (11 - s.enc.cnt.toNat) :=
      div_two_pow_lt (b.isLt.trans_eq (congrArg (2 ^ ·) (by omega)))
    have hgroup := joinBits_lt hacc hdiv
    rw [Nat.add_sub_cancel' (by omega)] at hgroup
    have hmod : b.toNat % 2 ^ (s.enc.cnt.toNat - 3) < 2 ^ 10 := (Nat.mod_le _ _).trans_lt (by omega)
    refine ⟨⟨_, _⟩, _, toNat_ofNat_of_lt hgroup, toNat_ofNat_of_lt hmod,
      toNat_ofNat_of_lt (by omega), exec_encByte_eq_next.mpr ⟨⟨h10, hacc⟩, ?_⟩⟩
    rw [takeOctet_of_three_le_count _ _ h3 h10]
    rfl

/-- Settles O19: the final group in each padding mode, with no bit cut by the group's width. -/
theorem encEndByCount : Obligations.EncEndByCount := by
  rintro s ⟨h10, hacc⟩
  refine ⟨fun h0 => exec_encEnd_eq_next.mpr ⟨⟨h10, hacc⟩, ?_⟩,
    fun ⟨h1, h3⟩ => ⟨_, toNat_padded h3 hacc, exec_encEnd_eq_next.mpr ⟨⟨h10, hacc⟩, ?_⟩⟩,
    fun h4 => ⟨_, toNat_padded (by omega) hacc, exec_encEnd_eq_next.mpr ⟨⟨h10, hacc⟩, ?_⟩⟩⟩
  · rw [closingSymbols_of_zero _ h0]
    rfl
  · rw [closingSymbols_of_tail _ h1 h3]
    rfl
  · rw [closingSymbols_of_main _ h4]
    rfl

end Sys2Proof.Proofs
end

section
/-! PROOFS. The family of spec/42_decoder_commands.md: how DEC_SYM (R160) ends and what it emits and keeps by the
count of bits pending, and what DEC_END (R167) reports. -/

namespace Sys2Proof.Machine

/-! ### A code point outside the tables (R9, R163) -/

theorem resolve_of_above_unicode (c : Config) {cp : CodePoint} (h : 0x10FFFF < cp.toNat) :
    resolve c.rom cp = none := by
  obtain ⟨-, -, -, hmain, htail⟩ := (check_iff_entries c.rom).mp c.wellFormed
  exact resolve_eq_none (fun i hi => Nat.not_lt.mpr (hmain i) (hi ▸ h))
    fun j hj => Nat.not_lt.mpr (htail j) (hj ▸ h)

/-! ### The loop of R160, an octet at a time -/

theorem Group.value_lt (g : Group) : g.value < 2 ^ g.width := by
  cases g <;> exact BitVec.isLt _

theorem emitOctets_of_lt (fuel t : Nat) {n : Nat} (h : n < 8) : emitOctets fuel t n = ([], t, n) := by
  cases fuel with
  | zero => rfl
  | succ fuel => rw [emitOctets, if_neg (Nat.not_le.mpr h)]

/-- With 8 bits pending beside `k` more, the first 8 leave as an octet and the loop goes on with the `k`. -/
theorem emitOctets_succ (fuel t k : Nat) :
    emitOctets (fuel + 1) t (k + 8) =
      (.oct (BitVec.ofNat 8 (t / 2 ^ k)) :: (emitOctets fuel (t % 2 ^ k) k).1, (emitOctets fuel (t % 2 ^ k) k).2) := by
  have hwidth : k + 8 - 1 - k + 1 = 8 := by omega
  rw [emitOctets, if_pos (Nat.le_add_left 8 k), Nat.add_sub_cancel, bitField, hwidth, ofNat_mod_two_pow]

section join
variable {a c v w k : Nat} (hc : c ≤ 8) (hk : c + w = k + 8)
include hc hk

/-- The first octet takes the `c` bits pending and the first `8 - c` of the group; the group's last `k` stay. -/
theorem emitOctets_joinBits (fuel : Nat) :
    emitOctets (fuel + 1) (joinBits a w v) (c + w) =
      (.oct (BitVec.ofNat 8 (joinBits a (8 - c) (v / 2 ^ k))) :: (emitOctets fuel (v % 2 ^ k) k).1,
        (emitOctets fuel (v % 2 ^ k) k).2) := by
  have hkw : k ≤ w := by omega
  have hfront : w - k = 8 - c := by omega
  rw [hk, emitOctets_succ, joinBits_div_two_pow _ _ hkw, joinBits_mod_two_pow _ _ hkw, hfront]

/-- The first octet's value is not cut by its width. -/
theorem toNat_firstOctet (ha : a < 2 ^ c) (hv : v < 2 ^ w) :
    (BitVec.ofNat 8 (joinBits a (8 - c) (v / 2 ^ k))).toNat = joinBits a (8 - c) (v / 2 ^ k) := by
  have hfront : v / 2 ^ k < 2 ^ (8 - c) := div_two_pow_lt (hv.trans_eq (congrArg (2 ^ ·) (by omega)))
  have hlt := joinBits_lt ha hfront
  rw [Nat.add_sub_cancel' hc] at hlt
  exact toNat_ofNat_of_lt hlt

theorem emitOctets_joinBits_one (hk8 : k < 8) :
    emitOctets 2 (joinBits a w v) (c + w) =
      ([.oct (BitVec.ofNat 8 (joinBits a (8 - c) (v / 2 ^ k)))], v % 2 ^ k, k) := by
  rw [emitOctets_joinBits hc hk, emitOctets_of_lt _ _ hk8]

end join

/-- From 16 bits on the group fills a second octet, its bits `[j+7:j]`, and its last `j` bits stay. -/
theorem emitOctets_joinBits_two {a c v w j : Nat} (hc : c ≤ 8) (hj : c + w = j + 8 + 8) (hj8 : j < 8) :
    emitOctets 2 (joinBits a w v) (c + w) =
      ([.oct (BitVec.ofNat 8 (joinBits a (8 - c) (v / 2 ^ (j + 8)))), .oct (BitVec.ofNat 8 (v / 2 ^ j))],
        v % 2 ^ j, j) := by
  have hsecond : v % 2 ^ (j + 8) / 2 ^ j = v / 2 ^ j % 2 ^ 8 := by
    rw [Nat.pow_add, Nat.mod_mul_right_div_self]
  have hrest : v % 2 ^ (j + 8) % 2 ^ j = v % 2 ^ j := Nat.mod_mod_of_dvd v (pow_dvd_pow 2 (Nat.le_add_right j 8))
  rw [emitOctets_joinBits hc hj, emitOctets_succ, hsecond, ofNat_mod_two_pow, hrest, emitOctets_of_lt _ _ hj8]

/-! ### DEC_SYM on an accepted code point, by what the loop answers -/

/-- DEC_SYM emits the octets of R160's loop, and D holds the bits and the count that the loop leaves, whole. -/
theorem exec_decSym_of_emitOctets {s : State} {cp : CodePoint} {g : Group} {out : List OutItem} {acc cnt : Nat}
    (hinv : s.dec.Inv) (herr : s.dec.err = none) (htail : s.dec.tail = false)
    (hresolve : resolve s.config.rom cp = some g)
    (hloop : emitOctets 2 (joinBits s.dec.acc.toNat g.width g.value) (s.dec.cnt.toNat + g.width) = (out, acc, cnt)) :
    ∃ d : Decoder, d.acc.toNat = acc ∧ d.cnt.toNat = cnt ∧ d.tail = g.isTail ∧ d.err = none ∧
      exec (.decSym cp) s = .next { s with dec := d, responses := s.responses ++ [⟨.ok, out, none⟩] } := by
  have hwidth : g.width ≤ 11 := by cases g <;> simp [Group.width]
  obtain ⟨-, -, -, hcnt, hacc⟩ := emitOctets_bits (fuel := 2) (n := s.dec.cnt.toNat + g.width) (by omega)
    (joinBits_lt hinv g.value_lt)
  rw [hloop] at hcnt hacc
  have hacc7 : acc < 2 ^ 7 := hacc.trans_le (Nat.pow_le_pow_right (by decide) (Nat.le_of_lt_succ hcnt))
  refine ⟨⟨BitVec.ofNat 7 acc, BitVec.ofNat 3 cnt, g.isTail, none⟩, toNat_ofNat_of_lt hacc7,
    toNat_ofNat_of_lt hcnt, rfl, rfl, exec_decSym_eq_next.mpr ⟨hinv, ?_⟩⟩
  rw [takeSymbol_of_resolved herr htail hresolve, takeGroup, hloop, herr, htail]
  rfl

/-! ### The code of DEC_END with no error stored (R170) -/

section closingCode
variable {d : Decoder} (herr : d.err = none)
include herr

theorem closingCode_without_padCheck : closingCode false d = .ok := by
  rw [closingCode, herr]
  rfl

theorem closingCode_of_ones (padCheck : Bool) (hones : d.acc.toNat = ones d.cnt.toNat) :
    closingCode padCheck d = .ok := by
  simp [closingCode, herr, paddingOk, hones]

theorem closingCode_of_ne_ones (hones : d.acc.toNat ≠ ones d.cnt.toNat) : closingCode true d = .malformedInput := by
  simp [closingCode, herr, paddingOk, hones]

end closingCode

end Sys2Proof.Machine

namespace Sys2Proof.Proofs

open Sys2Proof.Machine

/-- Settles O22: R9 keeps every entry within 0x10FFFF, so `cp` resolves to no group in both cases. -/
theorem decSymOutsideTablesIsInvalid : Obligations.DecSymOutsideTablesIsInvalid := by
  intro s cp hinv herr htail hcp
  have hresolve : resolve s.config.rom cp = none := by
    obtain ⟨hnotMain, hnotTail⟩ | habove := hcp
    · exact resolve_eq_none hnotMain hnotTail
    · exact resolve_of_above_unicode s.config habove
  rw [exec_decSym_eq_next.mpr ⟨hinv, takeSymbol_of_unresolved herr htail hresolve⟩, ← htail]
  rfl

/-- Settles O23: R160's loop emits no, one or two octets by the pending bits and the group's together. -/
theorem decSymTakesGroupByCount : Obligations.DecSymTakesGroupByCount := by
  intro s hinv herr htail
  have hcnt : s.dec.cnt.toNat ≤ 8 := by omega
  have hmain : s.dec.cnt.toNat + 11 = s.dec.cnt.toNat + 3 + 8 := rfl
  refine ⟨fun v h4 => ?_, fun v h5 => ?_, fun v h4 => ?_, fun v h5 => ?_⟩
  · obtain ⟨d, hd⟩ := exec_decSym_of_emitOctets hinv herr htail (resolve_romMain s.config v)
      (emitOctets_joinBits_one hcnt hmain (by omega))
    exact ⟨d, _, toNat_firstOctet hcnt hmain hinv v.isLt, hd⟩
  · have hj : s.dec.cnt.toNat - 5 + 8 = s.dec.cnt.toNat + 3 := by omega
    obtain ⟨d, hd⟩ := exec_decSym_of_emitOctets hinv herr htail (resolve_romMain s.config v)
      (emitOctets_joinBits_two hcnt (j := s.dec.cnt.toNat - 5) (by rw [hj]; exact hmain) (by omega))
    rw [hj] at hd
    exact ⟨d, _, _, toNat_firstOctet hcnt hmain hinv v.isLt, BitVec.toNat_ofNat .., hd⟩
  · exact exec_decSym_of_emitOctets hinv herr htail (resolve_romTail s.config v)
      (emitOctets_of_lt 2 _ (show s.dec.cnt.toNat + 3 < 8 by omega))
  · have hk : s.dec.cnt.toNat + 3 = s.dec.cnt.toNat - 5 + 8 := by omega
    obtain ⟨d, hd⟩ := exec_decSym_of_emitOctets hinv herr htail (resolve_romTail s.config v)
      (emitOctets_joinBits_one hcnt hk (by omega))
    exact ⟨d, _, toNat_firstOctet hcnt hk hinv v.isLt, hd⟩

/-- Settles O20: the stored error comes first among DEC_SYM's checks (R203). -/
theorem decSymRepeatsStoredError : Obligations.DecSymRepeatsStoredError :=
  fun _ _ hinv => ⟨fun herr => exec_decSym_eq_next.mpr ⟨hinv, takeSymbol_of_err herr⟩,
    fun herr => exec_decSym_eq_next.mpr ⟨hinv, takeSymbol_of_err herr⟩⟩

/-- Settles O21: the misplaced tail is found before the code point is looked up (R203). -/
theorem decSymAfterTailIsMalformed : Obligations.DecSymAfterTailIsMalformed := by
  intro s cp hinv herr htail
  rw [exec_decSym_eq_next.mpr ⟨hinv, takeSymbol_of_tail herr htail⟩, ← htail]
  rfl

/-- Settles O24: the code is `closingCode`, read in each case of R167. -/
theorem decEndReportsAndClears : Obligations.DecEndReportsAndClears := by
  intro s hinv
  refine ⟨_, exec_decEnd_eq_next.mpr ⟨hinv, rfl⟩, closingCode_of_err, closingCode_of_err, fun herr hpad => ?_,
    fun herr hpad => ⟨closingCode_of_ones herr _, fun hones => ?_⟩⟩
  · rw [hpad]
    exact closingCode_without_padCheck herr
  · rw [hpad]
    exact closingCode_of_ne_ones herr hones

end Sys2Proof.Proofs
end

section
/-! PROOFS. The family of spec/43_control_commands.md: NOP (R190), STAT and the fields of STATUS (R34, R191), the
answer to an illegal word (R193), and that no command stops the block (R195). -/

namespace Sys2Proof

/-- A well-formed command is decoded from its own word and no other. -/
theorem decode_eq_ok_iff_eq_encode {w : CommandWord} {i : Instr} (hwf : i.wf = true) :
    decode w = .ok i ↔ w = encode i := by
  rw [decode_eq_ok_iff, and_iff_right hwf, eq_comm]

end Sys2Proof

namespace Sys2Proof.Machine

/-! ### Runs within the invariants (R195, R231) -/

theorem step_completes {s : State} (hs : s.Inv) : ∃ t, step s = .next t := by
  obtain ⟨-, hstep⟩ | ⟨_, -, hstep⟩ | ⟨w, rest, i, -, -, hstep⟩ | ⟨_, _, _, -, -, hstep⟩ := step_cases s
  · exact ⟨_, hstep⟩
  · exact ⟨_, hstep⟩
  · obtain ⟨t, hexec⟩ := exec_completes (s := { s with port := rest }) ⟨hs.enc, hs.dec, hs.phase⟩ i
    exact ⟨t, hstep.trans hexec⟩
  · exact ⟨_, hstep⟩

theorem exists_runsTo_of_inv (k : Nat) {s : State} (hs : s.Inv) : ∃ t, RunsTo s k t := by
  induction k generalizing s with
  | zero => exact ⟨s, runsTo_zero.mpr rfl⟩
  | succ k ih =>
    obtain ⟨u, hstep⟩ := step_completes hs
    obtain ⟨t, hrun⟩ := ih (step_keeps_inv hs hstep)
    exact ⟨t, runsTo_succ.mpr ⟨u, hstep, hrun⟩⟩

/-! ### Illegal words (R193) -/

theorem isReserved_of_not_legal {w : CommandWord} {i : Instr} (hw : legal w = false) (hdec : decode w = .ok i) :
    i.isReserved = true := by
  by_contra hres
  have hlegal := exists_decode_unreserved_iff.mp ⟨i, hdec, Bool.eq_false_of_not_eq_true hres⟩
  cases hw.symm.trans hlegal

theorem exec_of_isReserved {i : Instr} (s : State) (hres : i.isReserved = true) :
    exec i s = .next (illegalCommand s) := by
  cases i with
  | reservedOp67 op rsv data => rfl
  | reservedOp8F op rsv data => rfl
  | _ => cases hres

/-- An illegal word is either rejected by the decoder or the command of a reserved row (log 13). -/
theorem step_of_not_legal {s : State} {w : CommandWord} {rest : List HostEvent}
    (hport : s.port = .command w :: rest) (hw : legal w = false) :
    step s = .next (illegalCommand { s with port := rest }) := by
  cases hdec : decode w with
  | error e => exact step_illegal hport hdec
  | ok i => rw [step_command hport hdec, exec_of_isReserved _ (isReserved_of_not_legal hw hdec)]

/-! ### The fields of STATUS (R34) -/

/-- A field of STATUS, its lowest bit at position `k`. -/
def statusField {w : Nat} (v : BitVec w) (k : Nat) : BitVec 32 := v.setWidth 32 <<< k

theorem statusWord_eq_fields (e : Encoder) (d : Decoder) : statusWord e d =
    statusField e.cnt 0 ||| statusField d.cnt 4 ||| statusField (BitVec.ofBool d.tail) 7 |||
      statusField (errBits d.err) 8 ||| statusField e.acc 10 ||| statusField d.acc 20 := by
  simp only [statusField, BitVec.shiftLeft_zero]
  rfl

section statusField
variable {w : Nat} (v : BitVec w) {k : Nat}

theorem extractLsb'_statusField (hk : k + w ≤ 32) : (statusField v k).extractLsb' k w = v := by
  ext j hj
  simp [statusField, BitVec.getLsbD_eq_getElem hj, show k + j < 32 by omega]

/-- A field has no bit in a range that lies wholly below or above it. -/
theorem extractLsb'_statusField_disjoint {start len : Nat} (h : start + len ≤ k ∨ k + w ≤ start) :
    (statusField v k).extractLsb' start len = 0#len := by
  ext j hj
  obtain hbelow | habove := h
  · simp [statusField, show start + j < k by omega]
  · simp [statusField, BitVec.getLsbD_of_ge v (start + j - k) (by omega)]

end statusField

/-- R34's layout, read back: the fields lie in disjoint ranges of bits, so each is there whole. -/
theorem statusWord_fields (e : Encoder) (d : Decoder) :
    (statusWord e d).extractLsb' 0 4 = e.cnt ∧
    (statusWord e d).extractLsb' 4 3 = d.cnt ∧
    (statusWord e d).extractLsb' 7 1 = BitVec.ofBool d.tail ∧
    (statusWord e d).extractLsb' 8 2 = errBits d.err ∧
    (statusWord e d).extractLsb' 10 10 = e.acc ∧
    (statusWord e d).extractLsb' 20 7 = d.acc ∧
    (statusWord e d).extractLsb' 27 5 = 0#5 := by
  rw [statusWord_eq_fields]
  simp [BitVec.extractLsb'_or, extractLsb'_statusField, extractLsb'_statusField_disjoint]

end Sys2Proof.Machine

namespace Sys2Proof.Proofs

open Sys2Proof.Machine

/-- Settles O35, by induction on the steps: each completes within the invariants and keeps them. -/
theorem everyRunIsSafe : Obligations.EveryRunIsSafe :=
  fun _ hs k => exists_runsTo_of_inv k hs

/-- Settles O8: both kinds of illegal word have the one answer `illegalCommand`. -/
theorem illegalWordIsAnswered : Obligations.IllegalWordIsAnswered :=
  fun _ _ _ => step_of_not_legal

/-- Settles O16, from the word of STAT, what it does within the invariants, and R34's layout. -/
theorem statReturnsStatus : Obligations.StatReturnsStatus :=
  ⟨fun _ => decode_eq_ok_iff_eq_encode rfl,
    fun s he hd => ⟨_, exec_stat_eq_next.mpr ⟨⟨he, hd⟩, rfl⟩, statusWord_fields s.enc s.dec⟩⟩

/-- Settles O15: NOP is decoded from its own word alone, and has no guard. -/
theorem nopCompletes : Obligations.NopCompletes :=
  ⟨fun _ => decode_eq_ok_iff_eq_encode rfl, fun _ => rfl⟩

/-- Settles O17: both reserved rows are answered as an illegal word. -/
theorem reservedCommandsComplete : Obligations.ReservedCommandsComplete :=
  fun s _ _ _ => ⟨exec_of_isReserved s rfl, exec_of_isReserved s rfl⟩

end Sys2Proof.Proofs
end

section
/-! PROOFS. The family of spec/60_exceptions.md: the first error of a message is kept up to DEC_END (R204), and the
idle block (R216). -/

namespace Sys2Proof.Machine

/-! ### The idle step (R216) -/

theorem step_of_idle {s : State} (hport : s.port = []) : step s = .next s := by
  obtain ⟨-, hstep⟩ | ⟨_, hp, -⟩ | ⟨_, _, _, hp, -, -⟩ | ⟨_, _, _, hp, -, -⟩ := step_cases s
  · exact hstep
  · cases hport.symm.trans hp
  · cases hport.symm.trans hp
  · cases hport.symm.trans hp

/-! ### The decoder's commands while an error is stored (R161, R171, R204) -/

section storedError
variable {s : State} {e : MessageError} {rest : List HostEvent}

theorem step_decSym_of_err {c : CodePoint} (hs : s.dec.Inv) (herr : s.dec.err = some e)
    (hport : s.port = .command (encode (.decSym c)) :: rest) :
    step s = .next (respond e.code [] none { s with port := rest }) :=
  (step_command hport (decode_encode rfl)).trans (exec_decSym_eq_next.mpr ⟨hs, takeSymbol_of_err herr⟩)

/-- The stored error is DEC_END's code under either PAD_CHECK. -/
theorem closeString_of_err (herr : s.dec.err = some e) :
    closeString s = respond e.code [] none { s with dec := Decoder.reset } := by
  rw [closeString, closingCode_of_err herr]

theorem step_decEnd_of_err (hs : s.dec.Inv) (herr : s.dec.err = some e)
    (hport : s.port = .command (encode .decEnd) :: rest) :
    step s = .next (respond e.code [] none { s with port := rest, dec := Decoder.reset }) :=
  (step_command hport (decode_encode rfl)).trans (exec_decEnd_eq_next.mpr ⟨hs, closeString_of_err herr⟩)

/-- A stored error answers what is left of the message, DEC_END included: DEC_SYM leaves D, so the error is still
stored for the next command. -/
theorem runsTo_decMsg_of_err {cs : List CodePoint} (hs : s.dec.Inv) (herr : s.dec.err = some e)
    (hport : s.port = commands (decMsg cs) ++ rest) :
    RunsTo s (cs.length + 1)
      { s with
        port := rest
        dec := Decoder.reset
        responses := s.responses ++ List.replicate (cs.length + 1) ⟨e.code, [], none⟩ } := by
  induction cs generalizing s with
  | nil => exact runsTo_succ.mpr ⟨_, step_decEnd_of_err hs herr hport, runsTo_zero.mpr rfl⟩
  | cons c cs ih =>
    have hrun := ih (s := respond e.code [] none { s with port := commands (decMsg cs) ++ rest }) hs herr rfl
    rw [respond_responses, List.append_assoc] at hrun
    exact runsTo_succ.mpr ⟨_, step_decSym_of_err hs herr hport, hrun⟩

end storedError

end Sys2Proof.Machine

namespace Sys2Proof.Proofs

open Sys2Proof.Machine

/-- Settles O26, by induction on the code points that follow the stored error. -/
theorem firstErrorIsKept : Obligations.FirstErrorIsKept :=
  fun _ _ _ _ => runsTo_decMsg_of_err

/-- Settles O10: of the cases of a step, an empty port leaves the idle one. -/
theorem idleStepHoldsState : Obligations.IdleStepHoldsState :=
  fun _ => step_of_idle

end Sys2Proof.Proofs
end

section
/-! PROOFS. The family of spec/70_reset_and_hazards.md: the reset input (R230) and the state after reset (R231). -/

namespace Sys2Proof.Machine

/-! ### The reset input (R230) -/

theorem step_of_reset {s : State} {rest : List HostEvent} (hport : s.port = .reset :: rest) :
    step s = .next (takeReset { s with port := rest }) := by
  obtain ⟨hp, -⟩ | ⟨_, hp, hstep⟩ | ⟨_, _, _, hp, -, -⟩ | ⟨_, _, _, hp, -, -⟩ := step_cases s
  · cases hport.symm.trans hp
  · cases hport.symm.trans hp
    exact hstep
  · cases hport.symm.trans hp
  · cases hport.symm.trans hp

/-! ### The state after reset (R231) -/

theorem State.resetWith_phase (c : Config) : (State.resetWith c).dec.phase = some .accept := by
  rw [resetWith_dec, Decoder.reset_phase]

theorem State.resetWith_inv (c : Config) : (State.resetWith c).Inv where
  enc := Encoder.reset_inv
  dec := Decoder.reset_inv
  phase := by simp [Decoder.reset_phase]

end Sys2Proof.Machine

namespace Sys2Proof.Proofs

open Sys2Proof.Machine

/-- Settles O9: of the cases of a step, the reset input leaves `takeReset`, which writes the two engines alone. -/
theorem resetInputClearsBothEngines : Obligations.ResetInputClearsBothEngines :=
  fun _ _ => step_of_reset

/-- Settles O33, from the invariants and the phase of the engines' reset values. -/
theorem resetMeetsInvariant : Obligations.ResetMeetsInvariant :=
  fun c => ⟨State.resetWith_inv c, State.resetWith_phase c⟩

end Sys2Proof.Proofs
end

section
/-! PROOFS. Words of the legality table of spec/95_test_vectors.md section 2.3, and where the model stops
(spec/93_implementation_defined.md section 2). -/

namespace Sys2Proof

/-! ### The words that the decoder rejects (R88) -/

theorem decode_formatC_of_rsv_ne_zero {op : BitVec 4} {rsv : BitVec 7} (data : BitVec 21) (hop : op.toNat < 6)
    (hrsv : rsv ≠ 0#7) : decode (formatC op rsv data) = .error .nonzeroReservedField := by
  have h67 : ¬ (op = 6#4 ∨ op = 7#4) := by bv_omega
  have h8 : ¬ 8 ≤ op.toNat := by omega
  simp [decode, h67, h8, hrsv]

/-- ENC_BYTE uses DATA[7:0] alone, so a bit above them makes its word illegal. -/
theorem decode_formatC_encByte_of_unused_ne_zero {data : BitVec 21} (hdata : data.extractLsb' 8 13 ≠ 0#13) :
    decode (formatC 1#4 0#7 data) = .error .nonzeroUnusedData := by
  rw [decode_formatC_operation data (by decide)]
  simp [decodeOperation, hdata]

end Sys2Proof

namespace Sys2Proof.Machine

/-! ### Where a command stops -/

theorem exists_guarded_eq_fault {f : Option Fault} {t : State} : (∃ f', guarded f t = .fault f') ↔ f ≠ none := by
  simp only [guarded_eq_fault]
  exact Option.ne_none_iff_exists'.symm

section stops
variable {s : State}

theorem exec_encByte_faults_iff {b : Octet} : (∃ f, exec (.encByte b) s = .fault f) ↔ ¬ s.enc.Inv := by
  rw [← encoderFault_eq_none]
  exact exists_guarded_eq_fault

theorem exec_encEnd_faults_iff : (∃ f, exec .encEnd s = .fault f) ↔ ¬ s.enc.Inv := by
  rw [← encoderFault_eq_none]
  exact exists_guarded_eq_fault

theorem exec_decSym_faults_iff {cp : CodePoint} : (∃ f, exec (.decSym cp) s = .fault f) ↔ ¬ s.dec.Inv := by
  rw [← decoderFault_eq_none]
  exact exists_guarded_eq_fault

theorem exec_decEnd_faults_iff : (∃ f, exec .decEnd s = .fault f) ↔ ¬ s.dec.Inv := by
  rw [← decoderFault_eq_none]
  exact exists_guarded_eq_fault

theorem exec_stat_faults_iff : (∃ f, exec .stat s = .fault f) ↔ ¬ (s.enc.Inv ∧ s.dec.Inv) := by
  rw [← stateFault_eq_none]
  exact exists_guarded_eq_fault

/-- Every arm of `exec` is a next state or the guard of one, and a guard only faults. -/
theorem exec_ne_refused (i : Instr) (r : Refusal) : exec i s ≠ .refused r := by
  cases i with
  | nop => exact nofun
  | encByte b => exact guarded_ne_refused
  | encEnd => exact guarded_ne_refused
  | decSym cp => exact guarded_ne_refused
  | decEnd => exact guarded_ne_refused
  | stat => exact guarded_ne_refused
  | reservedOp67 op rsv data => exact nofun
  | reservedOp8F op rsv data => exact nofun

end stops

end Sys2Proof.Machine

namespace Sys2Proof.Proofs

open Sys2Proof.Machine

/-- Settles O36: a command stops exactly where its guard finds a field out of its range, which is where the
invariant of the engines it uses is broken. -/
theorem stopsExactlyOutsideInvariants : Obligations.StopsExactlyOutsideInvariants :=
  fun _ _ _ => ⟨exec_encByte_faults_iff, exec_encEnd_faults_iff, exec_decSym_faults_iff, exec_decEnd_faults_iff,
    exec_stat_faults_iff, exec_ne_refused⟩

/-- Settles O5: the first seven words are those of the commands named; the last two have a bit of DATA that
ENC_BYTE does not use, and a bit of RSV. -/
theorem specWordsDecode : Obligations.SpecWordsDecode :=
  ⟨decode_encode (i := .nop) rfl,
    decode_encode (i := .encByte 0xFF#8) rfl,
    decode_encode (i := .encEnd) rfl,
    decode_encode (i := .decSym 0x1FFFFF#21) rfl,
    decode_encode (i := .decEnd) rfl,
    decode_encode (i := .stat) rfl,
    decode_encode (i := .reservedOp8F 8#4 0x7F#7 0x1FFFFF#21) rfl,
    decode_formatC_encByte_of_unused_ne_zero (data := 0x000100#21) (by decide),
    decode_formatC_of_rsv_ne_zero (op := 3#4) (rsv := 1#7) 0#21 (by decide) (by decide)⟩

end Sys2Proof.Proofs
end
